-- ==== Sys2Proof/Word.lean ====
section
/-! DEFINITION. The byte type and the one wire constant of the block (spec/00_scope.md R10, spec/30_encoding.md R86). -/

namespace Sys2Proof

/-- Every byte is an unsigned 8-bit value, bit 0 the least significant (R10). -/
abbrev Byte := BitVec 8

/-- The only wire constant (R86): start marker (R77) and escape byte (R80). -/
def marker : Byte := 0xFF

end Sys2Proof
end

