-- ==== Sys2Proof/Config.lean ====
section
/-! DEFINITION. The Channel Layout, the block's configuration (spec/00_scope.md R3 to R9), and what is derived from it.
The block has no value the spec leaves to an implementation beside these parameters, so there is no free value here. -/

namespace Sys2Proof

/-- One channel of the layout: `size[i]` (R4) and `offset[i]` (R5). -/
structure Channel where
  size   : Nat
  offset : Nat
deriving DecidableEq, Repr

/-- The parameters as written: the channels in index order (R3 to R5) and the node count `N` (R7). -/
structure Layout where
  channels : List Channel
  nodes    : Nat
deriving DecidableEq, Repr

/-- `T`, the total payload size (R6). -/
abbrev Layout.total (l : Layout) : Nat := (l.channels.map (·.size)).sum

/-- Two channels' intervals do not meet (R6; every size is at least 1 by R4). -/
abbrev Channel.Apart (a b : Channel) : Prop :=
  a.offset + a.size ≤ b.offset ∨ b.offset + b.size ≤ a.offset

/-- Position `p` lies in the channel's interval `[offset, offset + size)` (R6). -/
abbrev Channel.Holds (c : Channel) (p : Nat) : Prop := c.offset ≤ p ∧ p < c.offset + c.size

/-- The checks of R3, R4, R6 (pairwise disjoint, union `[0, T)`) and R7. -/
abbrev Layout.Valid (l : Layout) : Prop :=
  (1 ≤ l.channels.length ∧ l.channels.length ≤ 8) ∧
  (∀ c ∈ l.channels, 1 ≤ c.size) ∧
  l.channels.Pairwise Channel.Apart ∧
  (∀ c ∈ l.channels, c.offset + c.size ≤ l.total) ∧
  (∀ p ∈ List.range l.total, ∃ c ∈ l.channels, c.Holds p) ∧
  (1 ≤ l.nodes ∧ l.nodes ≤ 255)

/-- A configuration of the block. An invalid layout is refused at construction: there is no value of this type for
it, so there is no instance of the block and no state (R8). -/
structure Config where
  layout : Layout
  ok     : layout.Valid
deriving DecidableEq, Repr

/-- `C`, the channel count (R3). -/
def Config.C (c : Config) : Nat := c.layout.channels.length

/-- `T`, the total payload size (R6). -/
def Config.T (c : Config) : Nat := c.layout.total

/-- `N`, the number of node identities (R7). -/
def Config.N (c : Config) : Nat := c.layout.nodes

/-- `size[i]` (R4); 0 for an index that names no channel, which no rule reads. -/
def Config.size (c : Config) (i : Nat) : Nat := ((c.layout.channels[i]?).map (·.size)).getD 0

/-- `offset[i]` (R5); 0 for an index that names no channel, which no rule reads. -/
def Config.offset (c : Config) (i : Nat) : Nat := ((c.layout.channels[i]?).map (·.offset)).getD 0

/-- `SMAX`, the width in bytes of the data fields (R9). -/
def Config.smax (c : Config) : Nat := (c.layout.channels.map (·.size)).foldr max 0

/-- `FMAX`, the longest frame the encoder can emit (R9). -/
def Config.fmax (c : Config) : Nat := 3 + 2 * c.T

/-- `CNTW = ceil(log2(T+1))`, the width in bits of the receive counters (00_scope.md section 3, decision D31; `T` is
at least 1, and `ceil(log2(T+1))` is then one more than the integer logarithm of `T`). -/
def Config.cntw (c : Config) : Nat := Nat.log2 c.T + 1

/-- `W`, the width in bits of a command word (R71). -/
def Config.wordBits (c : Config) : Nat := 24 + 8 * c.smax

/-- The reference configuration (00_scope.md section 3): `C = 3`, sizes 2, 2, 2, offsets 0, 2, 4, `N = 1`. -/
def Config.reference : Config :=
  { layout := { channels := [⟨2, 0⟩, ⟨2, 2⟩, ⟨2, 4⟩], nodes := 1 }, ok := by decide }

end Sys2Proof
end

