-- ==== Sys2Proof/Syntax.lean ====
section
/-! DEFINITION. The instructions, one constructor per row of spec/opcode_table.json, and the events that carry them to
the block. The block is no processor (R1, R40): its instructions are the host's commands, the events of the two byte
streams, reset, and the symbols of the wire format. -/

namespace Sys2Proof

/-- One constructor per row of the opcode table. -/
inductive Instr where
  /-- INIT (R100): bind this endpoint's node identity. -/
  | init (node : Byte)
  /-- SET (R101 to R103): channel index and the command word's whole data field `d[0..SMAX)` (R71, R72). -/
  | set (ch : Byte) (d : List Byte)
  /-- SEND (R104 to R106). -/
  | send
  /-- GET (R160 to R163): channel index and queried node. -/
  | get (ch node : Byte)
  /-- A command word with `rsv = 0` and `op = 0b1xx` (R76, R109); `xx` are the two low bits of `op`. -/
  | illegalOp (xx : BitVec 2)
  /-- A command word with `rsv != 0`, whatever `op` is (R76, R109). -/
  | illegalRsv (op : BitVec 3) (rsv : BitVec 5)
  /-- The source offers one byte on the rx stream (R83, R130). -/
  | rx (data : Byte)
  /-- The sink is ready on the tx stream (R82, R107). -/
  | tx
  /-- Reset (R190). -/
  | reset
  /-- Wire byte 0, the start marker, offered on the rx stream (R77). -/
  | wireStart
  /-- Wire byte 1, a node id, offered on the rx stream (R78). -/
  | wireNodeid (n : Byte)
  /-- Wire byte 2, a channel bitmask, offered on the rx stream (R78). -/
  | wireMask (m : Byte)
  /-- A payload byte other than the marker, offered on the rx stream (R80). -/
  | wireData (d : Byte)
  /-- An escape pair, one payload byte 0xFF as two wire bytes 0xFF, offered on the rx stream (R80). -/
  | wireEsc
deriving DecidableEq, Repr

/-- Where an event reaches the block: the "format" of its row in the opcode table (R70, R71, R82, R83, section 4 of
30_encoding.md). -/
inductive Format where
  /-- the command port, a whole `cmd_word` (R71) -/
  | cmd
  /-- the rx stream, one byte (R83) -/
  | rxStream
  /-- the tx stream, `tx_ready` (R82): no bits come in -/
  | txStream
  /-- the `rst` input (R70): no bits come in -/
  | rst
  /-- the rx stream, wire byte 0 of a frame (R77) -/
  | wireByte0
  /-- the rx stream, wire byte 1 of a frame (R78) -/
  | wireByte1
  /-- the rx stream, wire byte 2 of a frame (R78) -/
  | wireByte2
  /-- the rx stream, one payload symbol of a frame (R80): a byte or an escape pair -/
  | wirePayload
deriving DecidableEq, Repr

/-- One thing the environment does to the block (R2, R58): the port and the bytes on it. Byte `k` of a command word is
its bits `[8k+7 : 8k]`; a stream's bytes stand in the order they are offered. -/
structure Event where
  format : Format
  bytes  : List Byte
deriving DecidableEq, Repr

end Sys2Proof
end

