-- ==== Sys2Proof/WellFormed.lean ====
section
/-! DEFINITION. When an instruction is one the encodings of spec/30_encoding.md can carry, each check with its name. -/

namespace Sys2Proof

/-- Why an instruction has no encoding. -/
inductive IllFormed where
  /-- the data field of SET has exactly `SMAX` bytes (R71) -/
  | dataFieldWidth
  /-- ILLEGAL_RSV is a word whose `rsv` field is not 0 (R76) -/
  | reservedFieldIsZero
  /-- a payload byte equal to the marker is sent as an escape pair, never alone (R80) -/
  | unescapedMarker
deriving DecidableEq, Repr

/-- The first check an instruction fails, for a command port of `smax` data bytes. -/
def Instr.illFormed (smax : Nat) (i : Instr) : Option IllFormed :=
  match i with
  | .init _ => none
  | .set _ d => if d.length = smax then none else some .dataFieldWidth
  | .send => none
  | .get _ _ => none
  | .illegalOp _ => none
  | .illegalRsv _ rsv => if rsv = 0 then some .reservedFieldIsZero else none
  | .rx _ => none
  | .tx => none
  | .reset => none
  | .wireStart => none
  | .wireNodeid _ => none
  | .wireMask _ => none
  | .wireData d => if d = marker then some .unescapedMarker else none
  | .wireEsc => none

/-- The instruction passes every check. -/
abbrev Instr.WellFormed (smax : Nat) (i : Instr) : Prop := i.illFormed smax = none

end Sys2Proof
end

