-- ==== Sys2Proof/Decode.lean ====
section
/-! DEFINITION. The decoder of events, total and rejecting by name, the encoder written from the same tables
(spec/30_encoding.md R71, R75 to R80, spec/opcode_table.json), and the opcode table's own numbering of words. -/

namespace Sys2Proof

/-- Why an event is no encoding of an instruction. -/
inductive Reject where
  /-- a command word of the wrong number of bits for this configuration (R71) -/
  | commandWidth
  /-- a stream or wire event with the wrong number of bytes (R82, R83, R77 to R80) -/
  | byteCount
  /-- wire byte 0 is not the start marker (R77) -/
  | notStartMarker
  /-- a lone marker, or a pair other than the escape pair, as one payload symbol (R80) -/
  | notPayloadSymbol
deriving DecidableEq, Repr

/-- `op`, bits `[2:0]` of the command word (R71). -/
def opField (b : Byte) : BitVec 3 := b.extractLsb' 0 3

/-- `rsv`, bits `[7:3]` of the command word (R71). -/
def rsvField (b : Byte) : BitVec 5 := b.extractLsb' 3 5

/-- The command word's low byte from its two fields (R71). -/
def lowByte (rsv : BitVec 5) (op : BitVec 3) : Byte := rsv ++ op

/-- A command word from its low byte, `ch`, `node` and data field (R71, R72). An illegal word is told by `rsv` first and
`op` second (R76); the two kinds have one effect (R109). -/
def decodeCommand (low ch node : Byte) (d : List Byte) : Instr :=
  if rsvField low ≠ 0 then .illegalRsv (opField low) (rsvField low)
  else if opField low = 0 then .init node
  else if opField low = 1 then .set ch d
  else if opField low = 2 then .send
  else if opField low = 3 then .get ch node
  else .illegalOp ((opField low).extractLsb' 0 2)

/-- One event, for a command port of `smax` data bytes. -/
def decode (smax : Nat) (e : Event) : Except Reject Instr :=
  match e.format, e.bytes with
  | .cmd, low :: ch :: node :: d =>
    if d.length = smax then .ok (decodeCommand low ch node d) else .error .commandWidth
  | .cmd, _ => .error .commandWidth
  | .rxStream, [b] => .ok (.rx b)
  | .rxStream, _ => .error .byteCount
  | .txStream, [] => .ok .tx
  | .txStream, _ => .error .byteCount
  | .rst, [] => .ok .reset
  | .rst, _ => .error .byteCount
  | .wireByte0, [b] => if b = marker then .ok .wireStart else .error .notStartMarker
  | .wireByte0, _ => .error .byteCount
  | .wireByte1, [b] => .ok (.wireNodeid b)
  | .wireByte1, _ => .error .byteCount
  | .wireByte2, [b] => .ok (.wireMask b)
  | .wireByte2, _ => .error .byteCount
  | .wirePayload, [b] => if b = marker then .error .notPayloadSymbol else .ok (.wireData b)
  | .wirePayload, [a, b] => if a = marker ∧ b = marker then .ok .wireEsc else .error .notPayloadSymbol
  | .wirePayload, _ => .error .byteCount

/-- A command word with every unlisted field 0, as R84 writes it. -/
def commandEvent (low ch node : Byte) (d : List Byte) : Event :=
  { format := .cmd, bytes := low :: ch :: node :: d }

/-- The event of an instruction, for a command port of `smax` data bytes; unlisted fields are 0 (R84). -/
def encode (smax : Nat) (i : Instr) : Event :=
  match i with
  | .init node => commandEvent (lowByte 0 0) 0 node (List.replicate smax 0)
  | .set ch d => commandEvent (lowByte 0 1) ch 0 d
  | .send => commandEvent (lowByte 0 2) 0 0 (List.replicate smax 0)
  | .get ch node => commandEvent (lowByte 0 3) ch node (List.replicate smax 0)
  | .illegalOp xx => commandEvent (lowByte 0 ((1 : BitVec 1) ++ xx)) 0 0 (List.replicate smax 0)
  | .illegalRsv op rsv => commandEvent (lowByte rsv op) 0 0 (List.replicate smax 0)
  | .rx b => { format := .rxStream, bytes := [b] }
  | .tx => { format := .txStream, bytes := [] }
  | .reset => { format := .rst, bytes := [] }
  | .wireStart => { format := .wireByte0, bytes := [marker] }
  | .wireNodeid n => { format := .wireByte1, bytes := [n] }
  | .wireMask m => { format := .wireByte2, bytes := [m] }
  | .wireData d => { format := .wirePayload, bytes := [d] }
  | .wireEsc => { format := .wirePayload, bytes := [marker, marker] }

/-- The `n` low bytes of a number, the lowest first: byte `k` is bits `[8k+7 : 8k]` (R10, R71). -/
def lowBytes : Nat → Nat → List Byte
  | 0, _ => []
  | n + 1, w => BitVec.ofNat 8 w :: lowBytes n (w / 256)

/-- The event a word of the opcode table stands for. The table numbers the words of two ports in one space; the two
words it fixes whole as wire symbols, WIRE_START (8 bits, 0xFF) and WIRE_ESC (16 bits, 0xFFFF), are read as those, and
every other word as a command word (assumption log 5). -/
def tableEvent (smax nbits w : Nat) : Event :=
  if nbits = 8 ∧ w = 0xFF then { format := .wireByte0, bytes := lowBytes 1 w }
  else if nbits = 16 ∧ w = 0xFFFF then { format := .wirePayload, bytes := lowBytes 2 w }
  else { format := .cmd, bytes := lowBytes (3 + smax) w }

/-- What the decoder reads from a word of the opcode table, on the reference configuration. -/
def decodeTableWord (nbits w : Nat) : Option Instr :=
  match decode Config.reference.smax (tableEvent Config.reference.smax nbits w) with
  | .ok i => some i
  | .error _ => none

end Sys2Proof
end

