-- ==== Sys2Proof/Machine/State.lean ====
section
/-! DEFINITION. The machine's state as plain data (spec/10_state.md R20 to R33, R41), the two ways a step can stop, and
the state after reset (spec/70_reset_and_hazards.md R190). -/

namespace Sys2Proof.Machine

/-- A byte array of the block, indexed by the block alone (R50): `tx_payload`, `rx_buf` and each node's
`store_payload`. Element `p` is position `p`. -/
abbrev Memory := List Byte

/-- The canonical form of an array of `n` bytes: it lists each of its positions once and no other, so equal arrays are
equal lists (R22, R29, R33; assumption log 2). -/
abbrev Memory.wf (n : Nat) (m : Memory) : Bool := m.length == n

/-- `rx_state`, the decoder's control state (R26). -/
inductive RxState where
  | idle
  | waitNodeId
  | waitBitmask
  | getData
  | gotSymbolPending
deriving DecidableEq, Repr

/-- The status of a command (R73, R171). Codes 0b101 and 0b110 are never produced, so no constructor stands for them. -/
inductive Status where
  | ok
  | busy
  | invalidChannel
  | invalidNode
  | noData
  | illegalCommand
deriving DecidableEq, Repr

/-- The response to one command: its status and the `SMAX` bytes `r[j]` (R73, R74). -/
structure Response where
  status : Status
  r      : List Byte
deriving DecidableEq, Repr

/-- One node's entry of the Per-Node Data Store: `store_valid[n]` (R32) and `store_payload[n]` (R33). -/
structure StoreEntry where
  valid   : Byte
  payload : Memory
deriving DecidableEq, Repr

/-- The state of one block, its configuration (an argument of every step, R20, which no step changes), what the model
observes of it (R41, R202), and the events the environment has still to make (R58, R59). -/
structure State where
  /-- the configuration (R3 to R8; assumption log 1) -/
  cfg           : Config
  /-- `tx_dirty` (R21) -/
  txDirty       : Byte
  /-- `tx_payload[0..T)` (R22) -/
  txPayload     : Memory
  /-- `tx_busy` (R23) -/
  txBusy        : Bool
  /-- `self_node_id`; `none` is the spec's own value `unset` (R24) -/
  selfNodeId    : Option Byte
  /-- `tx_frame` (R25) -/
  txFrame       : List Byte
  /-- `tx_idx` (R25) -/
  txIdx         : Nat
  /-- `rx_state` (R26) -/
  rxState       : RxState
  /-- `rx_node` (R27) -/
  rxNode        : Byte
  /-- `rx_mask` (R28) -/
  rxMask        : Byte
  /-- `rx_buf[0..T)` (R29) -/
  rxBuf         : Memory
  /-- `rx_count`, `CNTW` bits: a number below `2^CNTW`, written through `toCounter` (R30; assumption log 12) -/
  rxCount       : Nat
  /-- `rx_expected`, `CNTW` bits: a number below `2^CNTW`, written through `toCounter` (R31; assumption log 12) -/
  rxExpected    : Nat
  /-- `store_valid[0..N)` and `store_payload[0..N)` (R32, R33), entry `n` for node `n` -/
  store         : List StoreEntry
  /-- `tx_out` since the last reset, oldest first, each byte with its `tx_last` (R41, R107) -/
  txOut         : List (Byte × Bool)
  /-- `rx_in` since the last reset, oldest first (R41, R130) -/
  rxIn          : List Byte
  /-- what the sink had taken before the last reset (R191: it stays handed over; assumption log 3) -/
  txBeforeReset : List (Byte × Bool)
  /-- what the decoder had consumed before the last reset (assumption log 3) -/
  rxBeforeReset : List Byte
  /-- the responses the host has received, oldest first (R170, R202) -/
  responses     : List Response
  /-- the events the environment has still to make, next first (R58, R59; assumption log 4) -/
  pending       : List Event
deriving DecidableEq, Repr

/-- Why a run ends with no final state (R176). -/
inductive Fault where
  /-- Raised by SEND with `tx_busy = 0` and `self_node_id` unset (R105). Safe: the spec gives the run no meaning past it. -/
  | sendBeforeInit
deriving DecidableEq, Repr

/-- Why the model gives an event no meaning. -/
inductive Refusal where
  /-- Raised by `exec` for an instruction not modelled yet. Safe: the run stops. No arm raises it. -/
  | notModelled (mnemonic : String)
  /-- Raised by `step` when the next event is no encoding of an instruction (a command word that is not `W` bits wide, a
  wire symbol that is none). Safe: no such event can stand on the ports of R70. -/
  | malformedEvent (why : Reject)
deriving DecidableEq, Repr

/-- The state right after reset (R190) of a block with configuration `c`. Values the spec leaves unspecified:
assumption log 6. -/
def State.resetWith (c : Config) : State where
  cfg           := c
  txDirty       := 0
  txPayload     := List.replicate c.T 0
  txBusy        := false
  selfNodeId    := none
  txFrame       := []
  txIdx         := 0
  rxState       := .idle
  rxNode        := 0
  rxMask        := 0
  rxBuf         := List.replicate c.T 0
  rxCount       := 0
  rxExpected    := 1
  store         := List.replicate c.N { valid := 0, payload := List.replicate c.T 0 }
  txOut         := []
  rxIn          := []
  txBeforeReset := []
  rxBeforeReset := []
  responses     := []
  pending       := []

/-- The machine right after reset, on the reference configuration (00_scope.md section 3). -/
def State.reset : State := State.resetWith Config.reference

end Sys2Proof.Machine
end

