-- ==== Sys2Proof/Machine/Ops.lean ====
section
/-! DEFINITION. The shared operations: reading and writing the byte arrays (spec/20_memory.md R50 to R55), answering a
command (spec/60_exceptions.md R170, R171), and taking the environment's next event (R58, R59). The block has no trap
entry and no trap return (R177): a status in the response is all that a failing command leaves. -/

namespace Sys2Proof.Machine

/-- One byte of an array. -/
def Memory.read (m : Memory) (p : Nat) : Byte := m.getD p 0

/-- One byte of an array, replaced; an array has no position past its end to write. -/
def Memory.write (m : Memory) (p : Nat) (b : Byte) : Memory := m.set p b

/-- The bytes at the listed positions, in the list's order. -/
def gather (m : Memory) (ps : List Nat) : List Byte := ps.map (Memory.read m)

/-- Byte `k` of `bs` is written at position `ps[k]`, for every `k` both lists have. -/
def scatter : List Nat → List Byte → Memory → Memory
  | [], _, m => m
  | _ :: _, [], m => m
  | p :: ps, b :: bs, m => scatter ps bs (Memory.write m p b)

/-- A value as the receive counters hold it: an unsigned integer of `CNTW` bits (R30, R31; assumption log 12). -/
def toCounter (c : Config) (n : Nat) : Nat := n % 2 ^ c.cntw

/-- `n` zero bytes. -/
def zeros (n : Nat) : List Byte := List.replicate n 0

/-- A response added to those the host has received (R170: in the step that takes the command). -/
def respond (st : Status) (r : List Byte) (s : State) : State :=
  { s with responses := s.responses ++ [{ status := st, r := r }] }

/-- The response of every command but an accepted GET: each `r[j]` is 0x00 (R74). -/
def answer (st : Status) (s : State) : State := respond st (zeros s.cfg.smax) s

/-- The environment's next event and the state without it; nothing where the environment makes no more. -/
def takeEvent (s : State) : Option (Event × State) :=
  match s.pending with
  | [] => none
  | e :: rest => some (e, { s with pending := rest })

end Sys2Proof.Machine
end

