-- ==== Sys2Proof/Machine/Operands.lean ====
section
/-! DEFINITION. The helpers of spec/00_scope.md R11 to R13, the operands of SET and GET (spec/20_memory.md R52,
spec/30_encoding.md R72), and the outputs of the ports (R70, R73, R82). -/

namespace Sys2Proof.Machine

/-- The positions of channel `ch` in a payload array, in order: `offset[ch] + j` for `0 <= j < size[ch]` (R50, R52). -/
def channelPositions (c : Config) (ch : Nat) : List Nat := List.range' (c.offset ch) (c.size ch)

/-- `L(mask)`, the payload positions of a bitmask in wire order (R11). -/
def positions (c : Config) (mask : Byte) : List Nat :=
  (List.range c.C).flatMap (fun i => if mask.getLsbD i then channelPositions c i else [])

/-- `len(mask)` (R11). -/
def payloadLength (c : Config) (mask : Byte) : Nat := (positions c mask).length

/-- `stuff(b)` (R12). -/
def stuff (b : Byte) : List Byte := if b = marker then [marker, marker] else [b]

/-- `stuffall` (R12). -/
def stuffAll (bs : List Byte) : List Byte := bs.flatMap stuff

/-- `frame(id, mask, P)` (R13); the header is never stuffed (R79). -/
def frame (c : Config) (id mask : Byte) (payload : Memory) : List Byte :=
  [marker, id, mask] ++ stuffAll (gather payload (positions c mask))

/-- The data operand of SET, `[d[0], ..., d[size[ch]-1]]` (R72); bytes past it are ignored. A byte the field does not
list is 0x00 (R84). -/
def setData (c : Config) (ch : Nat) (d : List Byte) : List Byte :=
  (List.range (c.size ch)).map (fun j => d.getD j 0)

/-- The data field of an accepted GET: `size[ch]` bytes of the channel, then 0x00 up to `SMAX` (R74, R163). -/
def getBytes (c : Config) (ch : Nat) (payload : Memory) : List Byte :=
  (List.range c.smax).map (fun j => if j < c.size ch then Memory.read payload (c.offset ch + j) else 0)

/-- `tx_data`: the byte on offer (R70, R82). -/
def txData (s : State) : Byte := s.txFrame.getD s.txIdx 0

/-- `tx_last`: the byte on offer is the frame's last, `tx_idx = |tx_frame| - 1` (R70, R82). -/
def txLast (s : State) : Bool := s.txIdx + 1 == s.txFrame.length

/-- `tx_valid`, equal to `tx_busy` (R70). -/
def txValid (s : State) : Bool := s.txBusy

/-- `busy`, the value of `tx_busy` (R70). -/
def busyOutput (s : State) : Bool := s.txBusy

/-- `cmd_ready`, always 1 (R70). -/
def cmdReady (_ : State) : Bool := true

/-- Everything the sink ever took, over every reset (R41, R191). -/
def txHistory (s : State) : List (Byte × Bool) := s.txBeforeReset ++ s.txOut

/-- Everything the decoder ever consumed, over every reset (R41). -/
def rxHistory (s : State) : List Byte := s.rxBeforeReset ++ s.rxIn

end Sys2Proof.Machine
end

