-- ==== Sys2Proof/Machine/Flags.lean ====
section
/-! DEFINITION. The bits the block keeps and reports: the dirty mask and validity masks (spec/10_state.md R21, R32), the
codes of the status and of `rx_state` (spec/30_encoding.md R73, spec/10_state.md R26), and the response word. The block
has no condition-code flags (R40). -/

namespace Sys2Proof.Machine

/-- A mask with bit `ch` set (R103: `tx_dirty[ch] <- 1`). -/
def setBit (mask : Byte) (ch : Nat) : Byte := mask ||| BitVec.twoPow 8 ch

/-- `store_valid[node]` (R32). -/
def storeValid (s : State) (node : Nat) : Byte := ((s.store[node]?).map (·.valid)).getD 0

/-- `store_payload[node]` (R33). -/
def storePayload (s : State) (node : Nat) : Memory := ((s.store[node]?).map (·.payload)).getD []

/-- The status codes (R73). -/
def statusCode (st : Status) : BitVec 3 :=
  match st with
  | .ok => 0b000
  | .busy => 0b001
  | .invalidChannel => 0b010
  | .invalidNode => 0b011
  | .noData => 0b100
  | .illegalCommand => 0b111

/-- The codes of `rx_state` (R26). -/
def rxStateCode (st : RxState) : BitVec 3 :=
  match st with
  | .idle => 0b000
  | .waitNodeId => 0b001
  | .waitBitmask => 0b010
  | .getData => 0b011
  | .gotSymbolPending => 0b100

/-- `resp_word` as its bytes, the lowest first: the status in bits `[2:0]`, 0 in `[7:3]`, then `r[j]` (R73). -/
def responseWord (x : Response) : List Byte := (statusCode x.status).setWidth 8 :: x.r

end Sys2Proof.Machine
end

