-- ==== Sys2Proof/Machine/Decoder.lean ====
section
/-! DEFINITION. The receive state machine (spec/41_decoder.md R130 to R139): the pre-check, one function per state,
append and commit, the RX step made of them, and RX. -/

namespace Sys2Proof.Machine

/-- The pre-check (R131): the state whose rule handles the byte. -/
def preCheck (st : RxState) (data : Byte) : RxState :=
  if st = .gotSymbolPending ∧ data ≠ marker then .waitBitmask else st

/-- Commit (R139): the node's validity mask is replaced, and the payload bytes of the mask's channels. -/
def commit (s : State) : State :=
  { s with
    store := s.store.modify s.rxNode.toNat (fun e =>
      { valid := s.rxMask
        payload := scatter (positions s.cfg s.rxMask) (s.rxBuf.take s.rxExpected) e.payload }) }

/-- `rx_count + 1`, in the counter's `CNTW` bits (R30, R138). -/
def nextCount (s : State) : Nat := toCounter s.cfg (s.rxCount + 1)

/-- The byte's place in the assembly buffer and the count (R138, first two lines). -/
def storeByte (d : Byte) (s : State) : State :=
  { s with rxBuf := Memory.write s.rxBuf s.rxCount d, rxCount := nextCount s }

/-- `rx_state <- st`: the decoder is in `st` at the start of the next RX step (R130). -/
def enterState (st : RxState) (s : State) : State := { s with rxState := st }

/-- Append (R138), and commit in the same step where the frame completes. -/
def append (d : Byte) (s : State) : State :=
  if nextCount s = s.rxExpected then enterState .idle (commit (storeByte d s))
  else enterState .getData (storeByte d s)

/-- Idle (R132). -/
def rxIdle (data : Byte) (s : State) : State :=
  if data = marker then enterState .waitNodeId s else enterState .idle s

/-- The node id captured (R133, third case). -/
def captureNode (data : Byte) (s : State) : State := { s with rxNode := data }

/-- WaitNodeId (R133). -/
def rxWaitNodeId (data : Byte) (s : State) : State :=
  if data = marker then enterState .waitNodeId s
  else if s.cfg.N ≤ data.toNat then enterState .idle s
  else enterState .waitBitmask (captureNode data s)

/-- The mask captured, with its expected length and the counter at 0 (R134, last case). -/
def captureMask (data : Byte) (s : State) : State :=
  { s with rxMask := data, rxExpected := toCounter s.cfg (payloadLength s.cfg data), rxCount := 0 }

/-- WaitBitmask (R134). -/
def rxWaitBitmask (data : Byte) (s : State) : State :=
  if data = marker then enterState .waitNodeId s
  else if 2 ^ s.cfg.C ≤ data.toNat then enterState .idle s
  else if data = 0 then enterState .idle s
  else enterState .getData (captureMask data s)

/-- GetData (R135, R136). -/
def rxGetData (data : Byte) (s : State) : State :=
  if data = marker then enterState .gotSymbolPending s else append data s

/-- GotSymbolPending after the pre-check: the escape pair is one literal marker byte (R137). -/
def rxGotSymbolPending (s : State) : State := append marker s

/-- The byte is consumed (R130). -/
def consumeByte (data : Byte) (s : State) : State := { s with rxIn := s.rxIn ++ [data] }

/-- The rule of the dispatch state (R132 to R137). -/
def rxDispatch (st : RxState) (data : Byte) (s : State) : State :=
  match st with
  | .idle => rxIdle data s
  | .waitNodeId => rxWaitNodeId data s
  | .waitBitmask => rxWaitBitmask data s
  | .getData => rxGetData data s
  | .gotSymbolPending => rxGotSymbolPending s

/-- The RX step (R130, R140): consume the byte, pre-check, then the rule of the state the pre-check gives. -/
def rxStep (data : Byte) (s : State) : State :=
  rxDispatch (preCheck s.rxState data) data (consumeByte data s)

/-- RX steps for bytes in order (R85 `RXS`). -/
def rxSteps (bs : List Byte) (s : State) : State := bs.foldl (fun s b => rxStep b s) s

/-- RX (R130). -/
def execRx (data : Byte) (s : State) : Host.Outcome State Fault Refusal := .next (rxStep data s)

end Sys2Proof.Machine
end

