-- ==== Sys2Proof/Machine/Encoder.lean ====
section
/-! DEFINITION. The encoder's instructions INIT, SET, SEND and TX (spec/40_encoder.md R100 to R108). -/

namespace Sys2Proof.Machine

/-- INIT (R100). -/
def execInit (node : Byte) (s : State) : Host.Outcome State Fault Refusal :=
  .next (answer .ok { s with selfNodeId := some node })

/-- The effect of an accepted SET (R103). -/
def stageChannel (ch : Nat) (d : List Byte) (s : State) : State :=
  { s with
    txPayload := scatter (channelPositions s.cfg ch) (setData s.cfg ch d) s.txPayload
    txDirty := setBit s.txDirty ch }

/-- SET: Busy first (R101), then InvalidChannel (R102), then the effect (R103). -/
def execSet (ch : Byte) (d : List Byte) (s : State) : Host.Outcome State Fault Refusal :=
  if s.txBusy then .next (answer .busy s)
  else if s.cfg.C ≤ ch.toNat then .next (answer .invalidChannel s)
  else .next (answer .ok (stageChannel ch.toNat d s))

/-- The effect of an accepted SEND for the bound node id (R106). -/
def startFrame (id : Byte) (s : State) : State :=
  { s with txFrame := frame s.cfg id s.txDirty s.txPayload, txIdx := 0, txBusy := true }

/-- SEND: Busy first (R104), then the model fault (R105), then the effect (R106). -/
def execSend (s : State) : Host.Outcome State Fault Refusal :=
  if s.txBusy then .next (answer .busy s)
  else
    match s.selfNodeId with
    | none => .fault .sendBeforeInit
    | some id => .next (answer .ok (startFrame id s))

/-- The sink takes the byte on offer (R107). -/
def handByte (s : State) : State :=
  { s with txOut := s.txOut ++ [(txData s, txLast s)], txIdx := s.txIdx + 1 }

/-- TX completion (R108): the channels just sent are zeroed, and the encoder is idle with nothing dirty. -/
def completeSend (s : State) : State :=
  { s with
    txPayload := scatter (positions s.cfg s.txDirty) (zeros (payloadLength s.cfg s.txDirty)) s.txPayload
    txDirty := 0
    txFrame := []
    txIdx := 0
    txBusy := false }

/-- The TX step (R107, R108). With no byte on offer a ready sink takes nothing (R70; assumption log 7). -/
def txStep (s : State) : State :=
  if s.txBusy then
    if txLast s then completeSend (handByte s) else handByte s
  else s

/-- TX (R107, R108). -/
def execTx (s : State) : Host.Outcome State Fault Refusal := .next (txStep s)

end Sys2Proof.Machine
end

