-- ==== Sys2Proof/Machine/Illegal.lean ====
section
/-! DEFINITION. The reserved command encodings (spec/40_encoder.md R109, spec/30_encoding.md R76). -/

namespace Sys2Proof.Machine

/-- A word with a reserved `op` (R109). -/
def execIllegalOp (_xx : BitVec 2) (s : State) : Host.Outcome State Fault Refusal :=
  .next (answer .illegalCommand s)

/-- A word with a reserved field that is not 0 (R109). -/
def execIllegalRsv (_op : BitVec 3) (_rsv : BitVec 5) (s : State) : Host.Outcome State Fault Refusal :=
  .next (answer .illegalCommand s)

end Sys2Proof.Machine
end

