-- ==== Sys2Proof/Machine/Reset.lean ====
section
/-! DEFINITION. RESET (spec/70_reset_and_hazards.md R190 to R192). -/

namespace Sys2Proof.Machine

/-- RESET (R190): every element of the block takes its reset value and the histories are empty. The configuration stays
(R20), the sink and the host keep what they have (R191; assumption log 3), and the environment's events stay its own. -/
def execReset (s : State) : Host.Outcome State Fault Refusal :=
  .next { State.resetWith s.cfg with
    txBeforeReset := s.txBeforeReset ++ s.txOut
    rxBeforeReset := s.rxBeforeReset ++ s.rxIn
    responses := s.responses
    pending := s.pending }

end Sys2Proof.Machine
end

