-- ==== Sys2Proof/Machine/Store.lean ====
section
/-! DEFINITION. The Per-Node Data Store's accessor GET (spec/42_store.md R160 to R164). -/

namespace Sys2Proof.Machine

/-- GET: InvalidNode (R160), InvalidChannel (R161), NoData (R162), then the channel's bytes (R163). -/
def execGet (ch node : Byte) (s : State) : Host.Outcome State Fault Refusal :=
  if s.cfg.N ≤ node.toNat then .next (answer .invalidNode s)
  else if s.cfg.C ≤ ch.toNat then .next (answer .invalidChannel s)
  else if (storeValid s node.toNat).getLsbD ch.toNat = false then .next (answer .noData s)
  else .next (respond .ok (getBytes s.cfg ch.toNat (storePayload s node.toNat)) s)

end Sys2Proof.Machine
end

