-- ==== Sys2Proof/Machine/Wire.lean ====
section
/-! DEFINITION. The symbols of the wire format as the source offers them on the rx stream (spec/30_encoding.md R77 to
R80). The decoder sees only bytes, so each symbol is the RX step of its byte, and the escape pair the RX steps of its
two bytes (R83, R130; assumption log 8). -/

namespace Sys2Proof.Machine

/-- WIRE_START (R77). -/
def execWireStart (s : State) : Host.Outcome State Fault Refusal := .next (rxStep marker s)

/-- WIRE_NODEID (R78). -/
def execWireNodeid (n : Byte) (s : State) : Host.Outcome State Fault Refusal := .next (rxStep n s)

/-- WIRE_MASK (R78). -/
def execWireMask (m : Byte) (s : State) : Host.Outcome State Fault Refusal := .next (rxStep m s)

/-- WIRE_DATA (R80). -/
def execWireData (d : Byte) (s : State) : Host.Outcome State Fault Refusal := .next (rxStep d s)

/-- WIRE_ESC (R80, R135, R137). -/
def execWireEsc (s : State) : Host.Outcome State Fault Refusal := .next (rxSteps [marker, marker] s)

end Sys2Proof.Machine
end

