-- ==== Sys2Proof/Machine/Dispatch.lean ====
section
/-! DEFINITION. One arm per instruction: the meaning of each row of spec/opcode_table.json. -/

namespace Sys2Proof.Machine

def exec (i : Instr) (s : State) : Host.Outcome State Fault Refusal :=
  match i with
  | .init node => Sys2Proof.Machine.execInit node s
  | .set ch d => Sys2Proof.Machine.execSet ch d s
  | .send => Sys2Proof.Machine.execSend s
  | .get ch node => Sys2Proof.Machine.execGet ch node s
  | .illegalOp xx => Sys2Proof.Machine.execIllegalOp xx s
  | .illegalRsv op rsv => Sys2Proof.Machine.execIllegalRsv op rsv s
  | .rx data => Sys2Proof.Machine.execRx data s
  | .tx => Sys2Proof.Machine.execTx s
  | .reset => Sys2Proof.Machine.execReset s
  | .wireStart => Sys2Proof.Machine.execWireStart s
  | .wireNodeid n => Sys2Proof.Machine.execWireNodeid n s
  | .wireMask m => Sys2Proof.Machine.execWireMask m s
  | .wireData d => Sys2Proof.Machine.execWireData d s
  | .wireEsc => Sys2Proof.Machine.execWireEsc s

end Sys2Proof.Machine
end

