-- ==== Sys2Proof/Machine/Step.lean ====
section
/-! DEFINITION. One step: the environment's next event, decoded and executed (spec/20_memory.md R58, R59). -/

namespace Sys2Proof.Machine

/-- One atomic step (R56). Where the environment makes no event, no agent has an enabled step and nothing changes: a
stuck agent is neither faulted nor finished, and no timeout moves it (R182). -/
def step (s : State) : Host.Outcome State Fault Refusal :=
  match takeEvent s with
  | none => .next s
  | some (e, rest) =>
    match decode s.cfg.smax e with
    | .ok i => exec i rest
    | .error why => .refused (.malformedEvent why)

/-- The state with a word of the opcode table as the environment's next event (assumption log 5). -/
def State.withFetchWord (s : State) (nbits w : Nat) : State :=
  { s with pending := tableEvent s.cfg.smax nbits w :: s.pending }

end Sys2Proof.Machine
end

