-- ==== Sys2Proof/Safety.lean ====
section
/-! DEFINITION. What a sound state of the block is (the invariants of spec/10_state.md R25, R30, R31, R34 to R38), and
runs of instructions, in the terms the claims use. -/

namespace Sys2Proof.Machine

/-- The arrays have their sizes (R22, R29, R33), and the store one entry per node (R32). -/
structure SizesOk (s : State) : Prop where
  txPayload    : Memory.wf s.cfg.T s.txPayload = true
  rxBuf        : Memory.wf s.cfg.T s.rxBuf = true
  store        : s.store.length = s.cfg.N
  storePayload : ∀ e ∈ s.store, Memory.wf s.cfg.T e.payload = true

/-- No mask names a channel that does not exist: R34 for `tx_dirty`, R35 for every node's validity mask. -/
structure MasksOk (s : State) : Prop where
  txDirty    : s.txDirty.toNat < 2 ^ s.cfg.C
  storeValid : ∀ e ∈ s.store, e.valid.toNat < 2 ^ s.cfg.C

/-- The decoder's facts: R36, and the counters' ranges and widths (R30, R31). -/
structure DecoderOk (s : State) : Prop where
  node     : s.rxState = .waitBitmask ∨ s.rxState = .getData ∨ s.rxState = .gotSymbolPending →
               s.rxNode.toNat < s.cfg.N
  mask     : s.rxState = .getData ∨ s.rxState = .gotSymbolPending →
               1 ≤ s.rxMask.toNat ∧ s.rxMask.toNat ≤ 2 ^ s.cfg.C - 1 ∧
               s.rxExpected = payloadLength s.cfg s.rxMask ∧ s.rxCount < s.rxExpected
  count    : s.rxCount ≤ s.cfg.T
  expected : 1 ≤ s.rxExpected ∧ s.rxExpected ≤ s.cfg.T
  width    : s.rxCount < 2 ^ s.cfg.cntw ∧ s.rxExpected < 2 ^ s.cfg.cntw

/-- The encoder's facts: R37 (the frame in flight is the one built from what is still staged) and R38 (a channel that
is not dirty holds zeros). -/
structure EncoderOk (s : State) : Prop where
  idle  : s.txBusy = false ↔ s.txFrame = []
  index : s.txBusy = false → s.txIdx = 0
  busy  : s.txBusy = true → 3 ≤ s.txFrame.length ∧ s.txIdx < s.txFrame.length ∧
            ∃ id, s.txFrame = frame s.cfg id s.txDirty s.txPayload
  clean : ∀ i < s.cfg.C, s.txDirty.getLsbD i = false →
            ∀ p ∈ channelPositions s.cfg i, Memory.read s.txPayload p = 0

/-- Every response has `SMAX` bytes, all 0x00 unless its status is OK (R73, R74). -/
def ResponsesOk (s : State) : Prop :=
  ∀ x ∈ s.responses, x.r.length = s.cfg.smax ∧ (x.status ≠ .ok → x.r = zeros s.cfg.smax)

/-- The invariants of the block together. -/
structure Inv (s : State) : Prop where
  sizes     : SizesOk s
  masks     : MasksOk s
  decoder   : DecoderOk s
  encoder   : EncoderOk s
  responses : ResponsesOk s

/-- The state but for one more response to the host. -/
def withResponse (s : State) (st : Status) (r : List Byte) : State :=
  { s with responses := s.responses ++ [{ status := st, r := r }] }

/-- The host's commands, the illegal words among them (R58). -/
def isCommand : Instr → Bool
  | .init _ => true
  | .set _ _ => true
  | .send => true
  | .get _ _ => true
  | .illegalOp _ => true
  | .illegalRsv _ _ => true
  | .rx _ => false
  | .tx => false
  | .reset => false
  | .wireStart => false
  | .wireNodeid _ => false
  | .wireMask _ => false
  | .wireData _ => false
  | .wireEsc => false

/-- What the source offers on the rx stream: a byte or a wire symbol (R58, R83). -/
def isReceive : Instr → Bool
  | .init _ => false
  | .set _ _ => false
  | .send => false
  | .get _ _ => false
  | .illegalOp _ => false
  | .illegalRsv _ _ => false
  | .rx _ => true
  | .tx => false
  | .reset => false
  | .wireStart => true
  | .wireNodeid _ => true
  | .wireMask _ => true
  | .wireData _ => true
  | .wireEsc => true

/-- The byte `data` completes the frame in progress: it is appended (R136, R137) and is the last one expected (R138). -/
def completesFrame (s : State) (data : Byte) : Prop :=
  (s.rxState = .getData ∧ data ≠ marker ∨ s.rxState = .gotSymbolPending ∧ data = marker) ∧
  nextCount s = s.rxExpected

/-- Instructions executed in order, stopping at the first that gives no next state (R202: a finite run). -/
def execAll : List Instr → State → Host.Outcome State Fault Refusal
  | [], s => .next s
  | i :: is, s =>
    match exec i s with
    | .next t => execAll is t
    | .fault r => .fault r
    | .refused r => .refused r

/-- The entries the sink sees for one whole frame: its bytes in order, the last alone marked (R82, R110). -/
def markLast : List Byte → List (Byte × Bool)
  | [] => []
  | [b] => [(b, true)]
  | b :: c :: bs => (b, false) :: markLast (c :: bs)

end Sys2Proof.Machine
end

