-- ==== Sys2Proof/Certificates/Slice0/Obligations.lean ====
section
/-! DEFINITION. The statements about the model, from the numbered rules of spec/. A state of the block is arbitrary unless
a premise says otherwise; `Inv` (Safety.lean) is the invariant that `StepKeepsInvariant` and `InvariantHoldsAtReset` state. -/

open Sys2Proof Sys2Proof.Machine

/-! Encodings -/

/-- Decoding the encoding of a well-formed instruction gives it back, every operand at every value (R71, R75 to R80). -/
def Obligations.DecodeOfEncodeIsIdentity : Prop :=
  ∀ (smax : Nat) (i : Instr), i.WellFormed smax → decode smax (encode smax i) = .ok i

/-- The command words that R84, the opcode table and 95_test_vectors.md write out decode to what they stand for
(reference configuration, 40-bit words), and the wire symbols of R77 to R80 with them. -/
def Obligations.WrittenWordsDecode : Prop :=
  decode 2 ⟨.cmd, lowBytes 5 0x0000050000⟩ = .ok (.init 5) ∧
  decode 2 ⟨.cmd, lowBytes 5 0x10FF000001⟩ = .ok (.set 0 [0xFF, 0x10]) ∧
  decode 2 ⟨.cmd, lowBytes 5 0x0000000002⟩ = .ok .send ∧
  decode 2 ⟨.cmd, lowBytes 5 0x0000010103⟩ = .ok (.get 1 1) ∧
  decode 2 ⟨.cmd, lowBytes 5 0x0000000004⟩ = .ok (.illegalOp 0) ∧
  decode 2 ⟨.cmd, lowBytes 5 0x000000000A⟩ = .ok (.illegalRsv 2 1) ∧
  decode 2 ⟨.wireByte0, [0xFF]⟩ = .ok .wireStart ∧
  decode 2 ⟨.wirePayload, [0xFF, 0xFF]⟩ = .ok .wireEsc ∧
  decode 2 ⟨.wirePayload, [0xFE]⟩ = .ok (.wireData 0xFE)

/-- R76: a command word is illegal exactly when `op` (the low byte modulo 8) is at least 4 or `rsv` (its upper five bits)
is not 0; an illegal one only answers IllegalCommand, and the unlisted fields of a legal one do not matter. -/
def Obligations.IllegalCommandWords : Prop :=
  ∀ (low ch node : Byte) (d : List Byte), ∃ i, decode d.length ⟨.cmd, low :: ch :: node :: d⟩ = .ok i ∧
    (4 ≤ low.toNat % 8 ∨ low.toNat / 8 ≠ 0 → ∀ s : State,
      exec i s = .next (withResponse s .illegalCommand (List.replicate s.cfg.smax 0))) ∧
    (low.toNat % 8 < 4 ∧ low.toNat / 8 = 0 →
      (low.toNat % 8 = 0 → i = .init node) ∧ (low.toNat % 8 = 1 → i = .set ch d) ∧
      (low.toNat % 8 = 2 → i = .send) ∧ (low.toNat % 8 = 3 → i = .get ch node))

/-- R72: SET reads no byte of its data field past `d[0..size[ch])`, and none at all with `ch >= C`: data fields that agree on
those bytes have one outcome. That it reads each of them is SetStagesOneChannel. -/
def Obligations.SetIgnoresBytesPastTheChannel : Prop :=
  ∀ (s : State) (ch : Byte) (d d' : List Byte), d.length = s.cfg.smax → d'.length = s.cfg.smax →
    (ch.toNat < s.cfg.C → ∀ j < s.cfg.size ch.toNat, d[j]? = d'[j]?) →
    exec (.set ch d) s = exec (.set ch d') s

/-! The step -/

/-- A step executes the instruction that the environment's next event decodes to, on the state without that event; so it
does for an event placed by `withFetchWord`. -/
def Obligations.StepRunsNextEvent : Prop :=
  (∀ (s : State) (e : Event) (rest : List Event) (i : Instr), s.pending = e :: rest →
    decode s.cfg.smax e = .ok i → step s = exec i { s with pending := rest }) ∧
  (∀ (s : State) (nbits w : Nat) (i : Instr), decode s.cfg.smax (tableEvent s.cfg.smax nbits w) = .ok i →
    step (s.withFetchWord nbits w) = exec i s)

/-- Where the environment makes no event nothing changes and nothing faults: no timeout moves a stuck agent (R182). -/
def Obligations.StepWithoutEventsChangesNothing : Prop :=
  ∀ s : State, s.pending = [] → step s = .next s

/-! The encoder -/

/-- R100: INIT writes `self_node_id` only and always answers OK. -/
def Obligations.InitBindsNodeId : Prop :=
  ∀ (s : State) (n : Byte),
    exec (.init n) s = .next (withResponse { s with selfNodeId := some n } .ok (List.replicate s.cfg.smax 0))

/-- R101: SET while busy answers Busy, whatever the channel, and writes nothing. -/
def Obligations.SetWhileBusyAnswersBusy : Prop :=
  ∀ (s : State) (ch : Byte) (d : List Byte), s.txBusy = true →
    exec (.set ch d) s = .next (withResponse s .busy (List.replicate s.cfg.smax 0))

/-- R102: SET of a channel that does not exist answers InvalidChannel and writes nothing. -/
def Obligations.SetOfUnknownChannelAnswersInvalidChannel : Prop :=
  ∀ (s : State) (ch : Byte) (d : List Byte), s.txBusy = false → s.cfg.C ≤ ch.toNat →
    exec (.set ch d) s = .next (withResponse s .invalidChannel (List.replicate s.cfg.smax 0))

/-- R103: an accepted SET writes the channel's bytes and its dirty bit, no other byte (so no other channel's) and no other
bit, and nothing else. -/
def Obligations.SetStagesOneChannel : Prop :=
  ∀ (s : State) (ch : Byte) (d : List Byte), Inv s → s.txBusy = false → ch.toNat < s.cfg.C → d.length = s.cfg.smax →
    ∃ payload dirty,
      exec (.set ch d) s = .next (withResponse { s with txPayload := payload, txDirty := dirty } .ok
        (List.replicate s.cfg.smax 0)) ∧
      payload.length = s.txPayload.length ∧
      (∀ j < s.cfg.size ch.toNat, some (Memory.read payload (s.cfg.offset ch.toNat + j)) = d[j]?) ∧
      (∀ p, ¬(s.cfg.offset ch.toNat ≤ p ∧ p < s.cfg.offset ch.toNat + s.cfg.size ch.toNat) →
        Memory.read payload p = Memory.read s.txPayload p) ∧
      (∀ i < s.cfg.C, i ≠ ch.toNat → ∀ j < s.cfg.size i,
        Memory.read payload (s.cfg.offset i + j) = Memory.read s.txPayload (s.cfg.offset i + j)) ∧
      (∀ i, dirty.getLsbD i = (s.txDirty.getLsbD i || i == ch.toNat))

/-- R104: SEND while busy answers Busy and writes nothing, so the frame in flight goes on. -/
def Obligations.SendWhileBusyAnswersBusy : Prop :=
  ∀ s : State, s.txBusy = true → exec .send s = .next (withResponse s .busy (List.replicate s.cfg.smax 0))

/-- R105: SEND with no node identity is the model fault SendBeforeInit. -/
def Obligations.SendBeforeInitFaults : Prop :=
  ∀ s : State, s.txBusy = false → s.selfNodeId = none → exec .send s = .fault .sendBeforeInit

/-- R106: an accepted SEND builds `[0xFF, self_node_id, tx_dirty]` and the stuffed bytes of the dirty channels in ascending
order, sets `tx_idx` to 0 and `tx_busy` to 1, and writes nothing else. The frame is written out here from R11 to R13. -/
def Obligations.SendBuildsFrame : Prop :=
  ∀ (s : State) (id : Byte), s.txBusy = false → s.selfNodeId = some id →
    exec .send s = .next (withResponse
      { s with
        txFrame := [0xFF, id, s.txDirty] ++
          (((List.range s.cfg.C).filter (fun i => s.txDirty.getLsbD i)).flatMap (fun i =>
            (List.range (s.cfg.size i)).map (fun j => s.txPayload.getD (s.cfg.offset i + j) 0))).flatMap
              (fun b => if b = 0xFF then [0xFF, 0xFF] else [b])
        txIdx := 0
        txBusy := true }
      .ok (List.replicate s.cfg.smax 0))

/-- R107: a TX step before the frame's last byte hands that byte over unmarked and moves to the next. -/
def Obligations.TxHandsOneByte : Prop :=
  ∀ (s : State) (b : Byte), s.txBusy = true → s.txFrame[s.txIdx]? = some b → s.txIdx + 1 < s.txFrame.length →
    exec .tx s = .next { s with txOut := s.txOut ++ [(b, false)], txIdx := s.txIdx + 1 }

/-- R107 and R108: the TX step of the frame's last byte hands it over marked, zeroes the channels just sent and no other
byte, and leaves the encoder idle with nothing dirty. -/
def Obligations.TxOfLastByteCompletes : Prop :=
  ∀ (s : State) (b : Byte), Inv s → s.txBusy = true → s.txFrame[s.txIdx]? = some b →
    s.txIdx + 1 = s.txFrame.length →
    ∃ payload,
      exec .tx s = .next { s with
        txOut := s.txOut ++ [(b, true)], txPayload := payload, txDirty := 0, txFrame := [], txIdx := 0,
        txBusy := false } ∧
      payload.length = s.txPayload.length ∧
      (∀ i < s.cfg.C, s.txDirty.getLsbD i = true → ∀ j < s.cfg.size i,
        Memory.read payload (s.cfg.offset i + j) = 0) ∧
      (∀ p, (∀ i < s.cfg.C, s.txDirty.getLsbD i = true →
          ¬(s.cfg.offset i ≤ p ∧ p < s.cfg.offset i + s.cfg.size i)) →
        Memory.read payload p = Memory.read s.txPayload p)

/-- A ready sink takes nothing where no byte is on offer (the model's reading of R70 and R107, assumption log 7). -/
def Obligations.TxWithNothingOnOffer : Prop :=
  ∀ s : State, s.txBusy = false → exec .tx s = .next s

/-- R109: a reserved command writes nothing and answers IllegalCommand, busy or not. -/
def Obligations.ReservedCommandDoesNothing : Prop :=
  ∀ (s : State) (xx : BitVec 2) (op : BitVec 3) (rsv : BitVec 5),
    exec (.illegalOp xx) s = .next (withResponse s .illegalCommand (List.replicate s.cfg.smax 0)) ∧
    exec (.illegalRsv op rsv) s = .next (withResponse s .illegalCommand (List.replicate s.cfg.smax 0))

/-- R110: SEND and then the sink taking every byte is the source's one call: the sink gets exactly the frame, its last
byte alone marked, and afterwards the whole payload is zero and nothing is dirty or in flight. -/
def Obligations.SendAndDrainIsOneSend : Prop :=
  ∀ (s : State) (id : Byte), Inv s → s.txBusy = false → s.selfNodeId = some id →
    execAll (.send :: List.replicate (frame s.cfg id s.txDirty s.txPayload).length .tx) s =
      .next (withResponse
        { s with
          txOut := s.txOut ++ markLast (frame s.cfg id s.txDirty s.txPayload)
          txPayload := List.replicate s.cfg.T 0
          txDirty := 0 }
        .ok (List.replicate s.cfg.smax 0))

/-- R111: SEND with nothing dirty sends the 3-byte frame and leaves the sender's state as it was. A receiver in Idle never
touches its store for that frame, and drops it to Idle, unless the id is 0xFF, which it reads as a start marker (R112). -/
def Obligations.EmptySendIsHarmless : Prop :=
  (∀ (s : State) (id : Byte), Inv s → s.txBusy = false → s.selfNodeId = some id → s.txDirty = 0 →
    execAll [.send, .tx, .tx, .tx] s =
      .next (withResponse { s with txOut := s.txOut ++ [(0xFF, false), (id, false), (0x00, true)] } .ok
        (List.replicate s.cfg.smax 0))) ∧
  (∀ (r : State) (id : Byte), r.rxState = .idle →
    ∃ t, execAll [.rx 0xFF, .rx id, .rx 0x00] r = .next t ∧ t.store = r.store ∧ (id ≠ 0xFF → t.rxState = .idle))

/-- R81: a frame has 3 bytes, its payload bytes, and one byte more for each payload byte 0xFF; so at least 3 and at most
`FMAX`. -/
def Obligations.FrameLengthIsBounded : Prop :=
  ∀ (c : Config) (id mask : Byte) (payload : Memory),
    (frame c id mask payload).length =
      3 + ((List.range c.C).map (fun i => if mask.getLsbD i then c.size i else 0)).sum +
        ((positions c mask).map (Memory.read payload)).count 0xFF ∧
    3 ≤ (frame c id mask payload).length ∧ (frame c id mask payload).length ≤ c.fmax

/-- R61: while busy, an instruction that leaves the block busy leaves the frame, the payload buffer and the dirty mask as
they are; one that does not is RESET or the TX of the frame's last byte. -/
def Obligations.BusyFreezesTheFrame : Prop :=
  ∀ (s t : State) (i : Instr), s.txBusy = true → exec i s = .next t →
    (t.txBusy = true ∧ t.txFrame = s.txFrame ∧ t.txPayload = s.txPayload ∧ t.txDirty = s.txDirty) ∨
    (t.txBusy = false ∧ (i = .reset ∨ i = .tx ∧ s.txIdx + 1 = s.txFrame.length))

/-- R173: a command answers once, and one that does not answer OK writes no state element and returns only zero bytes. -/
def Obligations.NonOkCommandWritesNothing : Prop :=
  ∀ (s t : State) (i : Instr), isCommand i = true → exec i s = .next t →
    ∃ x, t.responses = s.responses ++ [x] ∧
      (x.status ≠ .ok → t = withResponse s x.status (List.replicate s.cfg.smax 0))

/-- R182: a sink that is never ready leaves the block busy for ever: whatever else happens (short of reset) completes, and
the frame, the next byte's index and what the sink has taken stay. -/
def Obligations.UnreadySinkKeepsTheBlockBusy : Prop :=
  ∀ (is : List Instr) (s : State), s.txBusy = true → (∀ i ∈ is, i ≠ .tx ∧ i ≠ .reset) →
    ∃ t, execAll is s = .next t ∧ t.txBusy = true ∧ t.txFrame = s.txFrame ∧ t.txIdx = s.txIdx ∧ t.txOut = s.txOut

/-- R24: the node identity is written by INIT, with its operand, and by reset only. -/
def Obligations.OnlyInitBindsTheNodeId : Prop :=
  ∀ (s t : State) (i : Instr), exec i s = .next t → t.selfNodeId ≠ s.selfNodeId →
    (∃ n, i = .init n ∧ t.selfNodeId = some n) ∨ (i = .reset ∧ t.selfNodeId = none)

/-- R23: `tx_busy` becomes 1 only by an accepted SEND, and 0 only by the TX of the last byte or by reset. -/
def Obligations.OnlySendAndTxMoveBusy : Prop :=
  ∀ (s t : State) (i : Instr), exec i s = .next t →
    (s.txBusy = false → t.txBusy = true → i = .send) ∧
    (s.txBusy = true → t.txBusy = false → i = .reset ∨ i = .tx ∧ s.txIdx + 1 = s.txFrame.length)

/-! The outputs -/

/-- R70, R82: `busy` and `tx_valid` are `tx_busy`, `cmd_ready` is always 1, and a TX step while busy adds exactly the byte
on offer, `tx_frame[tx_idx]` with `tx_last`, to what the sink has taken. -/
def Obligations.PortOutputs : Prop :=
  ∀ s : State, busyOutput s = s.txBusy ∧ txValid s = s.txBusy ∧ cmdReady s = true ∧
    (s.txBusy = true → ∀ b, s.txFrame[s.txIdx]? = some b →
      txData s = b ∧ (txLast s = true ↔ s.txIdx = s.txFrame.length - 1) ∧
      ∃ t, exec .tx s = .next t ∧ t.txOut = s.txOut ++ [(txData s, txLast s)])

/-- R73: the response word holds the status code in bits `[2:0]`, 0 in bits `[7:3]`, then the bytes `r[j]`. -/
def Obligations.ResponseWordLayout : Prop :=
  ∀ (st : Status) (r : List Byte), ∃ low, responseWord ⟨st, r⟩ = low :: r ∧
    low.extractLsb' 3 5 = 0 ∧
    (low.extractLsb' 0 3 : BitVec 3) = (match st with
      | .ok => 0 | .busy => 1 | .invalidChannel => 2 | .invalidNode => 3 | .noData => 4 | .illegalCommand => 7)

/-! The store -/

/-- R160: GET of a node the store does not hold answers InvalidNode, whatever the channel. -/
def Obligations.GetOfUnknownNode : Prop :=
  ∀ (s : State) (ch node : Byte), s.cfg.N ≤ node.toNat →
    exec (.get ch node) s = .next (withResponse s .invalidNode (List.replicate s.cfg.smax 0))

/-- R161: GET of a channel that does not exist, of a node the store holds, answers InvalidChannel. -/
def Obligations.GetOfUnknownChannel : Prop :=
  ∀ (s : State) (ch node : Byte), node.toNat < s.cfg.N → s.cfg.C ≤ ch.toNat →
    exec (.get ch node) s = .next (withResponse s .invalidChannel (List.replicate s.cfg.smax 0))

/-- R162: GET of a channel whose validity bit is 0 answers NoData. -/
def Obligations.GetWithoutData : Prop :=
  ∀ (s : State) (ch node : Byte) (e : StoreEntry), node.toNat < s.cfg.N → ch.toNat < s.cfg.C →
    s.store[node.toNat]? = some e → e.valid.getLsbD ch.toNat = false →
    exec (.get ch node) s = .next (withResponse s .noData (List.replicate s.cfg.smax 0))

/-- R163: GET of a valid channel answers OK with the channel's stored bytes, then zeros up to `SMAX`, and writes nothing. -/
def Obligations.GetReadsTheChannel : Prop :=
  ∀ (s : State) (ch node : Byte) (e : StoreEntry), node.toNat < s.cfg.N → ch.toNat < s.cfg.C →
    s.store[node.toNat]? = some e → e.valid.getLsbD ch.toNat = true →
    ∃ r, exec (.get ch node) s = .next (withResponse s .ok r) ∧ r.length = s.cfg.smax ∧
      ∀ j < s.cfg.smax, r[j]? =
        some (if j < s.cfg.size ch.toNat then Memory.read e.payload (s.cfg.offset ch.toNat + j) else 0)

/-- R164: GET changes nothing, whatever its status: it only answers. -/
def Obligations.GetChangesNothing : Prop :=
  ∀ (s : State) (ch node : Byte), ∃ st r, exec (.get ch node) s = .next (withResponse s st r)

/-- R165: after a commit the node's validity mask is the frame's, so a channel that the mask leaves out is invalid, and one
it holds is not. -/
def Obligations.CommitReplacesValidity : Prop :=
  ∀ (s : State) (data : Byte), Inv s → completesFrame s data →
    ∃ t, exec (.rx data) s = .next t ∧
      (∃ e, t.store[s.rxNode.toNat]? = some e ∧ e.valid = s.rxMask) ∧
      ∀ ch : Byte, ch.toNat < s.cfg.C →
        (s.rxMask.getLsbD ch.toNat = false →
          exec (.get ch s.rxNode) t = .next (withResponse t .noData (List.replicate s.cfg.smax 0))) ∧
        (s.rxMask.getLsbD ch.toNat = true → ∃ r, exec (.get ch s.rxNode) t = .next (withResponse t .ok r))

/-! The decoder -/

/-- R132: in Idle the marker starts a frame and any other byte is ignored. -/
def Obligations.RxInIdle : Prop :=
  ∀ (s : State) (data : Byte), s.rxState = .idle →
    exec (.rx data) s = .next { s with
      rxIn := s.rxIn ++ [data], rxState := if data = 0xFF then .waitNodeId else .idle }

/-- R133: in WaitNodeId the marker restarts, a byte `>= N` drops, and any other byte is captured as the node id. -/
def Obligations.RxInWaitNodeId : Prop :=
  ∀ (s : State) (data : Byte), s.rxState = .waitNodeId →
    (data = 0xFF → exec (.rx data) s = .next { s with rxIn := s.rxIn ++ [data], rxState := .waitNodeId }) ∧
    (data ≠ 0xFF → s.cfg.N ≤ data.toNat →
      exec (.rx data) s = .next { s with rxIn := s.rxIn ++ [data], rxState := .idle }) ∧
    (data ≠ 0xFF → data.toNat < s.cfg.N →
      exec (.rx data) s = .next { s with rxIn := s.rxIn ++ [data], rxNode := data, rxState := .waitBitmask })

/-- R134: in WaitBitmask the marker restarts, a mask with a bit past the channels or with no bit drops, and any other is
captured with its payload length, the sum of its channels' sizes. -/
def Obligations.RxInWaitBitmask : Prop :=
  ∀ (s : State) (data : Byte), s.rxState = .waitBitmask →
    (data = 0xFF → exec (.rx data) s = .next { s with rxIn := s.rxIn ++ [data], rxState := .waitNodeId }) ∧
    (data ≠ 0xFF → 2 ^ s.cfg.C ≤ data.toNat ∨ data = 0 →
      exec (.rx data) s = .next { s with rxIn := s.rxIn ++ [data], rxState := .idle }) ∧
    (data ≠ 0xFF → data.toNat < 2 ^ s.cfg.C → data ≠ 0 →
      exec (.rx data) s = .next { s with
        rxIn := s.rxIn ++ [data]
        rxMask := data
        rxExpected := ((List.range s.cfg.C).map (fun i => if data.getLsbD i then s.cfg.size i else 0)).sum
        rxCount := 0
        rxState := .getData })

/-- R131: a byte other than the marker after a lone marker is handled as WaitBitmask handles it, with the node id kept. -/
def Obligations.LoneMarkerDemotesToWaitBitmask : Prop :=
  ∀ (s : State) (data : Byte), s.rxState = .gotSymbolPending → data ≠ 0xFF →
    exec (.rx data) s = exec (.rx data) { s with rxState := .waitBitmask } ∧
    ∃ t, exec (.rx data) s = .next t ∧ t.rxNode = s.rxNode ∧ t.rxBuf = s.rxBuf ∧ t.store = s.store

/-- R135: in GetData the marker opens the escape lookahead and is not stored. -/
def Obligations.MarkerInGetDataOpensLookahead : Prop :=
  ∀ s : State, s.rxState = .getData →
    exec (.rx 0xFF) s = .next { s with rxIn := s.rxIn ++ [0xFF], rxState := .gotSymbolPending }

/-- R136, R137, R138: before the last expected byte, a literal byte in GetData and the second marker of an escape pair are
each stored as one byte at `rx_count`, which goes up by one and does not wrap, and the decoder goes on collecting. -/
def Obligations.PayloadByteIsAppended : Prop :=
  ∀ (s : State) (data : Byte), Inv s →
    (s.rxState = .getData ∧ data ≠ 0xFF ∨ s.rxState = .gotSymbolPending ∧ data = 0xFF) →
    s.rxCount + 1 ≠ s.rxExpected →
    exec (.rx data) s = .next { s with
      rxIn := s.rxIn ++ [data], rxBuf := s.rxBuf.set s.rxCount data, rxCount := s.rxCount + 1, rxState := .getData }

/-- R138, R139: the last expected byte is stored and the frame commits in the same step: the node's validity mask is the
frame's, byte `L(mask)[k]` of its payload is `rx_buf[k]`, its other bytes and the other nodes are as they were. -/
def Obligations.LastByteCommitsTheFrame : Prop :=
  ∀ (s : State) (data : Byte), Inv s → completesFrame s data →
    ∃ store,
      exec (.rx data) s = .next { s with
        rxIn := s.rxIn ++ [data], rxBuf := s.rxBuf.set s.rxCount data, rxCount := s.rxCount + 1
        rxState := .idle, store := store } ∧
      store.length = s.store.length ∧
      (∀ n, n ≠ s.rxNode.toNat → store[n]? = s.store[n]?) ∧
      ∃ old new, s.store[s.rxNode.toNat]? = some old ∧ store[s.rxNode.toNat]? = some new ∧
        new.valid = s.rxMask ∧
        (∀ (k p : Nat), (positions s.cfg s.rxMask)[k]? = some p →
          some (Memory.read new.payload p) = (s.rxBuf.set s.rxCount data)[k]?) ∧
        (∀ p, p ∉ positions s.cfg s.rxMask → Memory.read new.payload p = Memory.read old.payload p)

/-- R141, R145: every byte in every state gives a next state, with no response, and touches only the Receive State and the
store. -/
def Obligations.RxAlwaysCompletesSilently : Prop :=
  ∀ (s : State) (data : Byte), ∃ st node mask buf count expected store,
    exec (.rx data) s = .next { s with
      rxIn := s.rxIn ++ [data], rxState := st, rxNode := node, rxMask := mask, rxBuf := buf, rxCount := count
      rxExpected := expected, store := store }

/-- R141: a byte that does not complete a frame, so every drop, leaves the store as it is. -/
def Obligations.OnlyACompletedFrameWritesTheStore : Prop :=
  ∀ (s t : State) (data : Byte), exec (.rx data) s = .next t → t.store ≠ s.store → completesFrame s data

/-- R142: without bytes the decoder stays where it is, however long the rest of the block runs (short of reset). -/
def Obligations.DecoderWaitsWithoutBytes : Prop :=
  ∀ (is : List Instr) (s t : State), (∀ i ∈ is, isReceive i = false ∧ i ≠ .reset) → execAll is s = .next t →
    t.rxState = s.rxState ∧ t.rxNode = s.rxNode ∧ t.rxMask = s.rxMask ∧ t.rxBuf = s.rxBuf ∧
    t.rxCount = s.rxCount ∧ t.rxExpected = s.rxExpected ∧ t.store = s.store ∧ t.rxIn = s.rxIn

/-- R144: a new frame that begins inside another is misread: its node id is taken as a bitmask. With no such mask the
decoder drops to Idle and ignores the bytes after it that are not markers; with a valid mask a frame for the old node
starts. -/
def Obligations.InterruptingFrameIsMisread : Prop :=
  ∀ (s : State) (id : Byte), s.rxState = .getData → id ≠ 0xFF →
    ((id = 0 ∨ 2 ^ s.cfg.C ≤ id.toNat) → ∀ bs : List Byte, (∀ b ∈ bs, b ≠ 0xFF) →
      ∃ t, execAll (.rx 0xFF :: .rx id :: bs.map .rx) s = .next t ∧ t.rxState = .idle ∧ t.store = s.store) ∧
    (id ≠ 0 → id.toNat < 2 ^ s.cfg.C →
      execAll [.rx 0xFF, .rx id] s = .next { s with
        rxIn := s.rxIn ++ [0xFF, id], rxMask := id, rxExpected := payloadLength s.cfg id, rxCount := 0
        rxState := .getData })

/-- R112: a header byte 0xFF is read as a start marker: after a sender's id 0xFF its mask is read as the node id, and a mask
0xFF restarts the frame. -/
def Obligations.MarkerInHeaderRestarts : Prop :=
  (∀ (s : State) (mask : Byte), s.rxState = .idle → mask ≠ 0xFF →
    execAll [.rx 0xFF, .rx 0xFF, .rx mask] s = .next { s with
      rxIn := s.rxIn ++ [0xFF, 0xFF, mask]
      rxNode := if mask.toNat < s.cfg.N then mask else s.rxNode
      rxState := if mask.toNat < s.cfg.N then .waitBitmask else .idle }) ∧
  (∀ (s : State) (id : Byte), s.rxState = .idle → id ≠ 0xFF → id.toNat < s.cfg.N →
    execAll [.rx 0xFF, .rx id, .rx 0xFF] s = .next { s with
      rxIn := s.rxIn ++ [0xFF, id, 0xFF], rxNode := id, rxState := .waitNodeId })

/-! The wire format -/

/-- R77 to R80, R83: a wire symbol completes, and is the RX steps of the bytes that encode it, in order. -/
def Obligations.WireSymbolIsItsBytes : Prop :=
  ∀ (s : State) (smax : Nat) (i : Instr), isReceive i = true →
    ∃ t, exec i s = .next t ∧ execAll ((encode smax i).bytes.map .rx) s = .next t

/-- R77, R78: from Idle, a start marker, a node id and a bitmask that a receiver accepts open a frame. -/
def Obligations.WireHeaderOpensAFrame : Prop :=
  ∀ (s : State) (n m : Byte), s.rxState = .idle → n.toNat < s.cfg.N → m ≠ 0xFF → m ≠ 0 → m.toNat < 2 ^ s.cfg.C →
    execAll [.wireStart, .wireNodeid n, .wireMask m] s = .next { s with
      rxIn := s.rxIn ++ [0xFF, n, m], rxNode := n, rxMask := m, rxExpected := payloadLength s.cfg m, rxCount := 0
      rxState := .getData }

/-- R80, R137: in GetData, before the last expected byte, a data symbol stores its byte and an escape pair stores exactly
one 0xFF. -/
def Obligations.WirePayloadSymbolStoresOneByte : Prop :=
  ∀ (s : State) (d : Byte), Inv s → s.rxState = .getData → s.rxCount + 1 ≠ s.rxExpected →
    (d ≠ 0xFF → exec (.wireData d) s = .next { s with
      rxIn := s.rxIn ++ [d], rxBuf := s.rxBuf.set s.rxCount d, rxCount := s.rxCount + 1 }) ∧
    exec .wireEsc s = .next { s with
      rxIn := s.rxIn ++ [0xFF, 0xFF], rxBuf := s.rxBuf.set s.rxCount 0xFF, rxCount := s.rxCount + 1 }

/-- A frame's bytes, received from Idle, give the addressed node exactly its mask and its payload bytes, and leave every
other node alone (R131 to R139). -/
def Obligations.ReceivedFrameIsStored : Prop :=
  ∀ (r : State) (id mask : Byte) (payload : Memory), Inv r → r.rxState = .idle → id.toNat < r.cfg.N →
    mask ≠ 0 → mask ≠ 0xFF → mask.toNat < 2 ^ r.cfg.C →
    ∃ t, execAll ((frame r.cfg id mask payload).map .rx) r = .next t ∧ t.rxState = .idle ∧
      (∀ n, n ≠ id.toNat → t.store[n]? = r.store[n]?) ∧
      ∃ e, t.store[id.toNat]? = some e ∧ e.valid = mask ∧
        ∀ p ∈ positions r.cfg mask, Memory.read e.payload p = Memory.read payload p

/-- R166: the round trip. A sender with nothing staged takes SETs of distinct channels and a SEND, and its sink takes the
frame; a receiver of the same configuration, in Idle, gets those bytes. Then GET of each channel set returns exactly the
bytes SET gave it, and GET of every other channel answers NoData. Mask 0xFF is left out, as in R166. -/
def Obligations.RoundTripReturnsWhatWasSet : Prop :=
  ∀ (s r : State) (n : Byte) (sets : List (Byte × List Byte)), Inv s → Inv r → r.cfg = s.cfg →
    s.txBusy = false → s.txDirty = 0 → s.selfNodeId = some n → n.toNat < s.cfg.N → r.rxState = .idle →
    sets ≠ [] → (sets.map (·.1)).Nodup → (∀ x ∈ sets, x.1.toNat < s.cfg.C ∧ x.2.length = s.cfg.smax) →
    sets.length < 8 →
    ∃ k s1 sent r1,
      execAll (sets.map (fun x => .set x.1 x.2) ++ .send :: List.replicate k .tx) s = .next s1 ∧
      s1.txBusy = false ∧ s1.txOut = s.txOut ++ markLast sent ∧
      execAll (sent.map .rx) r = .next r1 ∧
      (∀ x ∈ sets, ∃ bs, exec (.get x.1 n) r1 = .next (withResponse r1 .ok bs) ∧
        ∀ j < s.cfg.size x.1.toNat, bs[j]? = x.2[j]?) ∧
      (∀ ch : Byte, ch.toNat < s.cfg.C → ch ∉ sets.map (·.1) →
        exec (.get ch n) r1 = .next (withResponse r1 .noData (List.replicate s.cfg.smax 0)))

/-! The whole machine -/

/-- R65: a host command or a TX step never touches the Receive State or the store; the rx stream never touches the
Transmit State or the responses; nothing but RESET touches both, and nothing changes the configuration. -/
def Obligations.AgentsKeepToTheirState : Prop :=
  ∀ (s t : State) (i : Instr), exec i s = .next t →
    (isCommand i = true ∨ i = .tx →
      t.rxState = s.rxState ∧ t.rxNode = s.rxNode ∧ t.rxMask = s.rxMask ∧ t.rxBuf = s.rxBuf ∧
      t.rxCount = s.rxCount ∧ t.rxExpected = s.rxExpected ∧ t.store = s.store ∧ t.rxIn = s.rxIn) ∧
    (isReceive i = true →
      t.txDirty = s.txDirty ∧ t.txPayload = s.txPayload ∧ t.txBusy = s.txBusy ∧ t.selfNodeId = s.selfNodeId ∧
      t.txFrame = s.txFrame ∧ t.txIdx = s.txIdx ∧ t.txOut = s.txOut ∧ t.responses = s.responses) ∧
    t.cfg = s.cfg ∧ t.pending = s.pending

/-- R59: a step that touches no store (any command but GET, or TX) and an RX step may come in either order, with one and the
same outcome. -/
def Obligations.IndependentStepsCommute : Prop :=
  ∀ (s : State) (i : Instr) (data : Byte), (isCommand i = true ∧ (∀ ch node, i ≠ .get ch node)) ∨ i = .tx →
    execAll [i, .rx data] s = execAll [.rx data, i] s

/-- R41: the histories are appended to and never rewritten, by any instruction, RESET among them (over every reset:
assumption log 3), and so are the responses. -/
def Obligations.HistoriesOnlyGrow : Prop :=
  ∀ (s t : State) (i : Instr), exec i s = .next t →
    txHistory s <+: txHistory t ∧ rxHistory s <+: rxHistory t ∧ s.responses <+: t.responses

/-- R25, R30, R31, R34 to R38, R73, R74: every step keeps the invariants, from every state that meets them. -/
def Obligations.StepKeepsInvariant : Prop :=
  ∀ s t : State, Inv s → step s = .next t → Inv t

/-- The invariants hold right after reset, on the reference configuration and on every other. -/
def Obligations.InvariantHoldsAtReset : Prop :=
  Inv State.reset ∧ ∀ c : Config, Inv (State.resetWith c)

/-! Reset -/

/-- R190: RESET gives every element the value the spec states (nothing is said of those it leaves unspecified) and empties
the histories; the configuration stays. -/
def Obligations.ResetSetsTheWholeState : Prop :=
  ∀ s : State, ∃ t, exec .reset s = .next t ∧ t.cfg = s.cfg ∧
    t.txDirty = 0 ∧ t.txPayload = List.replicate s.cfg.T 0 ∧ t.txBusy = false ∧ t.selfNodeId = none ∧
    t.txFrame = [] ∧ t.txIdx = 0 ∧ t.rxState = .idle ∧
    t.store.length = s.cfg.N ∧ (∀ e ∈ t.store, e.valid = 0) ∧ t.txOut = [] ∧ t.rxIn = []

/-- R192 (and R193): after RESET the decoder is in Idle and every store entry is invalid, so GET of every channel of every
node answers NoData. -/
def Obligations.ResetAbandonsReception : Prop :=
  ∀ s : State, ∃ t, exec .reset s = .next t ∧ t.rxState = .idle ∧ (∀ e ∈ t.store, e.valid = 0) ∧
    ∀ ch node : Byte, node.toNat < s.cfg.N → ch.toNat < s.cfg.C →
      exec (.get ch node) t = .next (withResponse t .noData (List.replicate s.cfg.smax 0))

/-- R191: RESET abandons the frame in flight: what the sink has taken stays taken, no byte is added or marked, and no later
TX hands over any of the rest. -/
def Obligations.ResetAbandonsTheFrameInFlight : Prop :=
  ∀ (s : State) (k : Nat), ∃ t, execAll (.reset :: List.replicate k .tx) s = .next t ∧
    txHistory t = txHistory s ∧ t.txFrame = [] ∧ t.txBusy = false

/-- R39, R33: the values that reset leaves unspecified cannot be observed. Two blocks in Idle with nothing valid, alike but
for the decoder's scratch and the stored bytes, give the same responses, the same tx stream, the same decoder states and
the same validity masks in every run, so no such claim rests on the values of assumption log 6. -/
def Obligations.ResetContentsAreUnobservable : Prop :=
  ∀ (u v s : State) (is : List Instr), Inv u → Inv v → u.rxState = .idle →
    (∀ e ∈ u.store, e.valid = 0) → (∀ e ∈ v.store, e.valid = 0) →
    v = { u with
      rxNode := v.rxNode, rxMask := v.rxMask, rxBuf := v.rxBuf, rxCount := v.rxCount, rxExpected := v.rxExpected
      store := v.store } →
    execAll is u = .next s →
    ∃ t, execAll is v = .next t ∧ t.responses = s.responses ∧ txHistory t = txHistory s ∧ t.txBusy = s.txBusy ∧
      t.rxState = s.rxState ∧ t.store.map (·.valid) = s.store.map (·.valid)

/-- R30, R31, R138: `CNTW` is the least width that holds `T`; every instruction leaves the receive counters within it, from
every state that has them there; and the count of a frame in progress goes up by one without overflow. -/
def Obligations.CountersKeepTheirWidth : Prop :=
  (∀ c : Config, c.T < 2 ^ c.cntw ∧ ∀ w, c.T < 2 ^ w → c.cntw ≤ w) ∧
  (∀ (s t : State) (i : Instr), s.rxCount < 2 ^ s.cfg.cntw → s.rxExpected < 2 ^ s.cfg.cntw → exec i s = .next t →
    t.rxCount < 2 ^ t.cfg.cntw ∧ t.rxExpected < 2 ^ t.cfg.cntw) ∧
  (∀ s : State, Inv s → s.rxState = .getData ∨ s.rxState = .gotSymbolPending → nextCount s = s.rxCount + 1)
end

