-- ==== Sys2Proof/Laws/Arrays.lean ====
section
/-! SUPPORT. The laws of the byte arrays: what a read gives after a write, and that every operation keeps the canonical
form. -/

namespace Sys2Proof.Machine

variable {m : Memory} {p q n : Nat} {b : Byte} {ps : List Nat} {bs : List Byte}

@[simp] theorem write_length : (Memory.write m p b).length = m.length := by simp [Memory.write]

@[simp] theorem read_write_same (h : p < m.length) : Memory.read (Memory.write m p b) p = b := by
  simp [Memory.read, Memory.write, List.getD, h]

theorem read_write_other (h : p ≠ q) : Memory.read (Memory.write m p b) q = Memory.read m q := by
  simp [Memory.read, Memory.write, List.getD, h]

theorem write_keeps_wf (h : Memory.wf n m = true) : Memory.wf n (Memory.write m p b) = true := by
  simpa using h

@[simp] theorem scatter_nil : scatter ([] : List Nat) bs m = m := by simp [scatter]

@[simp] theorem scatter_length : ∀ (ps : List Nat) (bs : List Byte) (m : Memory),
    (scatter ps bs m).length = m.length
  | [], _, _ => by simp
  | _ :: _, [], _ => by simp [scatter]
  | p :: ps, b :: bs, m => by rw [scatter, scatter_length ps bs]; exact write_length

theorem scatter_keeps_wf (h : Memory.wf n m = true) : Memory.wf n (scatter ps bs m) = true := by
  simpa using h

theorem read_scatter_other : ∀ {ps : List Nat} {bs : List Byte} {m : Memory}, q ∉ ps →
    Memory.read (scatter ps bs m) q = Memory.read m q
  | [], _, _, _ => by simp
  | _ :: _, [], _, _ => by simp [scatter]
  | p :: ps, b :: bs, m, h => by
    rw [scatter, read_scatter_other (fun hq => h (List.mem_cons_of_mem _ hq))]
    exact read_write_other (fun e => h (by simp [e]))

/-- The byte a scatter leaves at its `k`-th position, where no position is listed twice. -/
theorem read_scatter_at : ∀ {ps : List Nat} {bs : List Byte} {m : Memory} {k : Nat},
    ps.Nodup → (∀ x ∈ ps, x < m.length) → ps[k]? = some p → bs[k]? = some b →
    Memory.read (scatter ps bs m) p = b
  | [], _, _, _, _, _, h, _ => by simp at h
  | _ :: _, [], _, _, _, _, _, h => by simp at h
  | a :: ps, c :: bs, m, k, hn, hl, hp, hb => by
    obtain ⟨ha, hn⟩ := List.nodup_cons.mp hn
    rw [scatter]
    cases k with
    | zero =>
      simp only [List.getElem?_cons_zero, Option.some.injEq] at hp hb
      subst hp hb
      rw [read_scatter_other ha]
      exact read_write_same (hl _ (by simp))
    | succ k =>
      simp only [List.getElem?_cons_succ] at hp hb
      exact read_scatter_at hn (fun x hx => by simpa using hl x (List.mem_cons_of_mem _ hx)) hp hb

/-- Arrays of one length that read alike at every position are equal. -/
theorem array_ext {m m' : Memory} (hl : m.length = m'.length)
    (h : ∀ p < m.length, Memory.read m p = Memory.read m' p) : m = m' := by
  refine List.ext_getElem hl fun i h1 h2 => ?_
  have := h i h1
  simpa [Memory.read, List.getD, h1, h2] using this

theorem getElem?_eq_read (h : p < m.length) : m[p]? = some (Memory.read m p) := by
  simp [Memory.read, List.getD, h]

theorem read_zeros : Memory.read (zeros n) p = 0 := by
  simp only [Memory.read, zeros, List.getD_eq_getElem?_getD, List.getElem?_replicate]
  split <;> rfl

@[simp] theorem zeros_length : (zeros n).length = n := by simp [zeros]

@[simp] theorem gather_length : (gather m ps).length = ps.length := by simp [gather]

theorem gather_congr {m m' : Memory} (h : ∀ p ∈ ps, Memory.read m p = Memory.read m' p) :
    gather m ps = gather m' ps := List.map_congr_left h

/-- What was scattered to distinct positions is what is gathered from them. -/
theorem gather_scatter (hn : ps.Nodup) (hl : ∀ x ∈ ps, x < m.length) (hb : bs.length = ps.length) :
    gather (scatter ps bs m) ps = bs := by
  refine List.ext_getElem (by simp [hb]) fun k h1 h2 => ?_
  simp only [gather, List.getElem_map]
  exact read_scatter_at hn hl (List.getElem?_eq_getElem (by simpa using h1)) (List.getElem?_eq_getElem h2)

/-- A scatter of zeros leaves zero at its positions. -/
theorem read_scatter_zeros (hn : ps.Nodup) (hl : ∀ x ∈ ps, x < m.length) (hp : p ∈ ps) :
    Memory.read (scatter ps (zeros ps.length) m) p = 0 := by
  obtain ⟨k, hk, rfl⟩ := List.getElem_of_mem hp
  refine read_scatter_at hn hl (List.getElem?_eq_getElem hk) (k := k) ?_
  simp [zeros, hk]

end Sys2Proof.Machine
end

