-- ==== Sys2Proof/Laws/Layout.lean ====
section
/-! SUPPORT. The facts of a valid layout (spec/00_scope.md R3 to R9, R11): positions are distinct and inside the payload,
channels do not share one, and a frame's length. -/

namespace Sys2Proof.Machine

variable {c : Config} {i j p : Nat} {mask : Byte}

theorem channels_between : 1 ≤ c.C ∧ c.C ≤ 8 := c.ok.1

theorem size_eq (h : i < c.C) : c.size i = (c.layout.channels[i]'h).size := by
  have h' : i < c.layout.channels.length := h
  rw [Config.size, List.getElem?_eq_getElem h']; rfl

theorem offset_eq (h : i < c.C) : c.offset i = (c.layout.channels[i]'h).offset := by
  have h' : i < c.layout.channels.length := h
  rw [Config.offset, List.getElem?_eq_getElem h']; rfl

theorem size_pos (h : i < c.C) : 1 ≤ c.size i := by
  rw [size_eq h]; exact c.ok.2.1 _ (List.getElem_mem _)

@[simp] theorem mem_channelPositions :
    p ∈ channelPositions c i ↔ c.offset i ≤ p ∧ p < c.offset i + c.size i := by
  simp [channelPositions, List.mem_range'_1]

@[simp] theorem channelPositions_length : (channelPositions c i).length = c.size i := by
  simp [channelPositions]

theorem channelPositions_nodup : (channelPositions c i).Nodup := List.nodup_range'

theorem channelPositions_getElem? (h : j < c.size i) :
    (channelPositions c i)[j]? = some (c.offset i + j) := by
  simp [channelPositions, h]

/-- A channel lies inside the payload (R6). -/
theorem channelPositions_lt (h : i < c.C) (hp : p ∈ channelPositions c i) : p < c.T := by
  have hc := c.ok.2.2.2.1 _ (List.getElem_mem (l := c.layout.channels) (n := i) h)
  rw [mem_channelPositions, size_eq h, offset_eq h] at hp
  exact Nat.lt_of_lt_of_le hp.2 hc

/-- Two channels share no position (R6). -/
theorem channelPositions_apart (hi : i < c.C) (hj : j < c.C) (hne : i ≠ j)
    (hp : p ∈ channelPositions c i) : p ∉ channelPositions c j := by
  rw [mem_channelPositions, size_eq hi, offset_eq hi] at hp
  rw [mem_channelPositions, size_eq hj, offset_eq hj]
  have hpw := List.pairwise_iff_getElem.mp c.ok.2.2.1
  rcases Nat.lt_or_gt_of_ne hne with h | h
  · have := hpw i j hi hj h; simp only [Channel.Apart] at this; omega
  · have := hpw j i hj hi h; simp only [Channel.Apart] at this; omega

/-- Every position of the payload belongs to a channel (R6). -/
theorem channel_of_position (h : p < c.T) : ∃ i < c.C, p ∈ channelPositions c i := by
  obtain ⟨ch, hm, hh⟩ := c.ok.2.2.2.2.1 p (List.mem_range.mpr h)
  obtain ⟨i, hi, rfl⟩ := List.getElem_of_mem hm
  exact ⟨i, hi, by rw [mem_channelPositions, size_eq hi, offset_eq hi]; exact hh⟩

theorem mem_positions : p ∈ positions c mask ↔
    ∃ i < c.C, mask.getLsbD i = true ∧ p ∈ channelPositions c i := by
  simp only [positions, List.mem_flatMap, List.mem_range]
  refine exists_congr fun i => and_congr_right fun _ => ?_
  by_cases h : mask.getLsbD i = true <;> simp [h]

theorem positions_lt (hp : p ∈ positions c mask) : p < c.T := by
  obtain ⟨i, hi, -, h⟩ := mem_positions.mp hp
  exact channelPositions_lt hi h

/-- No position is listed twice in `L(mask)`. -/
theorem positions_nodup : (positions c mask).Nodup := by
  refine List.nodup_flatMap.mpr ⟨fun i _ => ?_, ?_⟩
  · split
    · exact channelPositions_nodup
    · exact List.nodup_nil
  · refine List.Pairwise.imp_of_mem (R := (· ≠ ·)) (fun {a b} ha hb hne => ?_) List.nodup_range
    intro p h1 h2
    have ha := List.mem_range.mp ha
    have hb := List.mem_range.mp hb
    have of_mem : ∀ x, p ∈ (if mask.getLsbD x then channelPositions c x else []) → p ∈ channelPositions c x := by
      intro x hx; split at hx
      · exact hx
      · simp at hx
    exact channelPositions_apart ha hb hne (of_mem a h1) (of_mem b h2)

/-- `len(mask)` is the sum of the sizes of the mask's channels (R11). -/
theorem payloadLength_eq_sum : payloadLength c mask =
    ((List.range c.C).map (fun i => if mask.getLsbD i then c.size i else 0)).sum := by
  simp only [payloadLength, positions, List.length_flatMap]
  congr 1
  refine List.map_congr_left fun i _ => ?_
  split <;> simp

/-- `len(mask) <= T` (R29). -/
theorem payloadLength_le : payloadLength c mask ≤ c.T := by
  have h : (positions c mask).toFinset ⊆ Finset.range c.T := fun p hp => by
    simpa using positions_lt (List.mem_toFinset.mp hp)
  have := Finset.card_le_card h
  rwa [List.toFinset_card_of_nodup positions_nodup, Finset.card_range] at this

/-- `CNTW` bits hold every value up to `T` (R30, R31, decision D31). -/
theorem total_lt_counter : c.T < 2 ^ c.cntw := Nat.lt_log2_self

/-- A value up to `T` is not changed by the counter's width (R138: no overflow is possible). -/
theorem toCounter_of_le {n : Nat} (h : n ≤ c.T) : toCounter c n = n :=
  Nat.mod_eq_of_lt (Nat.lt_of_le_of_lt h total_lt_counter)

/-- A counter holds no more than its `CNTW` bits (R30, R31). -/
theorem toCounter_lt (n : Nat) : toCounter c n < 2 ^ c.cntw := Nat.mod_lt _ (Nat.two_pow_pos _)

/-- The length of a mask's payload fits the counter (R134). -/
@[simp] theorem toCounter_payloadLength : toCounter c (payloadLength c mask) = payloadLength c mask :=
  toCounter_of_le payloadLength_le

theorem total_pos : 1 ≤ c.T := by
  have h0 : 0 < c.C := channels_between.1
  have h1 := size_pos h0
  have h2 : c.offset 0 ∈ channelPositions c 0 := by rw [mem_channelPositions]; omega
  have := channelPositions_lt h0 h2
  omega

/-- A mask whose bits are all below `C`, and which is not 0, selects at least one byte (R134). -/
theorem payloadLength_pos (h0 : mask ≠ 0) (h : mask.toNat < 2 ^ c.C) : 1 ≤ payloadLength c mask := by
  obtain ⟨i, hi⟩ : ∃ i, mask.getLsbD i = true := by
    by_contra hn
    exact h0 (BitVec.eq_of_getLsbD_eq fun i _ => by simpa using fun hb => hn ⟨i, hb⟩)
  have hC : i < c.C := by
    by_contra hge
    have : mask.getLsbD i = false :=
      Nat.testBit_lt_two_pow (Nat.lt_of_lt_of_le h (Nat.pow_le_pow_right (by decide) (by omega)))
    simp [this] at hi
  have h1 := size_pos hC
  exact List.length_pos_of_mem (a := c.offset i)
    (mem_positions.mpr ⟨i, hC, hi, by rw [mem_channelPositions]; omega⟩)

/-- A channel is no wider than the command port's data field (R9). -/
theorem size_le_smax (h : i < c.C) : c.size i ≤ c.smax := by
  have key : ∀ (l : List Nat) (x : Nat), x ∈ l → x ≤ l.foldr max 0 := by
    intro l
    induction l with
    | nil => simp
    | cons a l ih => intro x hx; rcases List.mem_cons.mp hx with rfl | hx
                     · simp
                     · exact Nat.le_trans (ih x hx) (by simp)
  rw [size_eq h]
  exact key _ _ (List.mem_map.mpr ⟨_, List.getElem_mem _, rfl⟩)

theorem stuff_length (b : Byte) : 1 ≤ (stuff b).length ∧ (stuff b).length ≤ 2 := by
  unfold stuff; split <;> simp

/-- The stuffed payload has one byte more for each marker in it (R81). -/
theorem stuffAll_length (bs : List Byte) : (stuffAll bs).length = bs.length + bs.count marker := by
  induction bs with
  | nil => rfl
  | cons b bs ih =>
    simp only [stuffAll, List.flatMap_cons, List.length_append, List.length_cons] at ih ⊢
    rw [ih, List.count_cons]
    by_cases h : b = marker <;> simp [stuff, h] <;> omega

theorem frame_length {id : Byte} {m : Memory} : (frame c id mask m).length =
    3 + payloadLength c mask + (gather m (positions c mask)).count marker := by
  simp [frame, stuffAll_length, payloadLength, gather]; omega

theorem frame_congr {id : Byte} {m m' : Memory}
    (h : ∀ p ∈ positions c mask, Memory.read m p = Memory.read m' p) :
    frame c id mask m = frame c id mask m' := by
  simp [frame, gather, List.map_congr_left h]

end Sys2Proof.Machine
end

