-- ==== Sys2Proof/Laws/State.lean ====
section
/-! SUPPORT. The fields of the state after each named update: one lemma per field per update, so that no later proof
unfolds a record update. -/

namespace Sys2Proof.Machine

@[simp] theorem respond_cfg (st : Status) (r : List Byte) (s : State) :
    (respond st r s).cfg = s.cfg := rfl
@[simp] theorem respond_txDirty (st : Status) (r : List Byte) (s : State) :
    (respond st r s).txDirty = s.txDirty := rfl
@[simp] theorem respond_txPayload (st : Status) (r : List Byte) (s : State) :
    (respond st r s).txPayload = s.txPayload := rfl
@[simp] theorem respond_txBusy (st : Status) (r : List Byte) (s : State) :
    (respond st r s).txBusy = s.txBusy := rfl
@[simp] theorem respond_selfNodeId (st : Status) (r : List Byte) (s : State) :
    (respond st r s).selfNodeId = s.selfNodeId := rfl
@[simp] theorem respond_txFrame (st : Status) (r : List Byte) (s : State) :
    (respond st r s).txFrame = s.txFrame := rfl
@[simp] theorem respond_txIdx (st : Status) (r : List Byte) (s : State) :
    (respond st r s).txIdx = s.txIdx := rfl
@[simp] theorem respond_rxState (st : Status) (r : List Byte) (s : State) :
    (respond st r s).rxState = s.rxState := rfl
@[simp] theorem respond_rxNode (st : Status) (r : List Byte) (s : State) :
    (respond st r s).rxNode = s.rxNode := rfl
@[simp] theorem respond_rxMask (st : Status) (r : List Byte) (s : State) :
    (respond st r s).rxMask = s.rxMask := rfl
@[simp] theorem respond_rxBuf (st : Status) (r : List Byte) (s : State) :
    (respond st r s).rxBuf = s.rxBuf := rfl
@[simp] theorem respond_rxCount (st : Status) (r : List Byte) (s : State) :
    (respond st r s).rxCount = s.rxCount := rfl
@[simp] theorem respond_rxExpected (st : Status) (r : List Byte) (s : State) :
    (respond st r s).rxExpected = s.rxExpected := rfl
@[simp] theorem respond_store (st : Status) (r : List Byte) (s : State) :
    (respond st r s).store = s.store := rfl
@[simp] theorem respond_txOut (st : Status) (r : List Byte) (s : State) :
    (respond st r s).txOut = s.txOut := rfl
@[simp] theorem respond_rxIn (st : Status) (r : List Byte) (s : State) :
    (respond st r s).rxIn = s.rxIn := rfl
@[simp] theorem respond_txBeforeReset (st : Status) (r : List Byte) (s : State) :
    (respond st r s).txBeforeReset = s.txBeforeReset := rfl
@[simp] theorem respond_rxBeforeReset (st : Status) (r : List Byte) (s : State) :
    (respond st r s).rxBeforeReset = s.rxBeforeReset := rfl
@[simp] theorem respond_responses (st : Status) (r : List Byte) (s : State) :
    (respond st r s).responses = s.responses ++ [{ status := st, r := r }] := rfl
@[simp] theorem respond_pending (st : Status) (r : List Byte) (s : State) :
    (respond st r s).pending = s.pending := rfl

@[simp] theorem answer_cfg (st : Status) (s : State) :
    (answer st s).cfg = s.cfg := rfl
@[simp] theorem answer_txDirty (st : Status) (s : State) :
    (answer st s).txDirty = s.txDirty := rfl
@[simp] theorem answer_txPayload (st : Status) (s : State) :
    (answer st s).txPayload = s.txPayload := rfl
@[simp] theorem answer_txBusy (st : Status) (s : State) :
    (answer st s).txBusy = s.txBusy := rfl
@[simp] theorem answer_selfNodeId (st : Status) (s : State) :
    (answer st s).selfNodeId = s.selfNodeId := rfl
@[simp] theorem answer_txFrame (st : Status) (s : State) :
    (answer st s).txFrame = s.txFrame := rfl
@[simp] theorem answer_txIdx (st : Status) (s : State) :
    (answer st s).txIdx = s.txIdx := rfl
@[simp] theorem answer_rxState (st : Status) (s : State) :
    (answer st s).rxState = s.rxState := rfl
@[simp] theorem answer_rxNode (st : Status) (s : State) :
    (answer st s).rxNode = s.rxNode := rfl
@[simp] theorem answer_rxMask (st : Status) (s : State) :
    (answer st s).rxMask = s.rxMask := rfl
@[simp] theorem answer_rxBuf (st : Status) (s : State) :
    (answer st s).rxBuf = s.rxBuf := rfl
@[simp] theorem answer_rxCount (st : Status) (s : State) :
    (answer st s).rxCount = s.rxCount := rfl
@[simp] theorem answer_rxExpected (st : Status) (s : State) :
    (answer st s).rxExpected = s.rxExpected := rfl
@[simp] theorem answer_store (st : Status) (s : State) :
    (answer st s).store = s.store := rfl
@[simp] theorem answer_txOut (st : Status) (s : State) :
    (answer st s).txOut = s.txOut := rfl
@[simp] theorem answer_rxIn (st : Status) (s : State) :
    (answer st s).rxIn = s.rxIn := rfl
@[simp] theorem answer_txBeforeReset (st : Status) (s : State) :
    (answer st s).txBeforeReset = s.txBeforeReset := rfl
@[simp] theorem answer_rxBeforeReset (st : Status) (s : State) :
    (answer st s).rxBeforeReset = s.rxBeforeReset := rfl
@[simp] theorem answer_responses (st : Status) (s : State) :
    (answer st s).responses = s.responses ++ [{ status := st, r := zeros s.cfg.smax }] := rfl
@[simp] theorem answer_pending (st : Status) (s : State) :
    (answer st s).pending = s.pending := rfl

@[simp] theorem stageChannel_cfg (ch : Nat) (d : List Byte) (s : State) :
    (stageChannel ch d s).cfg = s.cfg := rfl
@[simp] theorem stageChannel_txDirty (ch : Nat) (d : List Byte) (s : State) :
    (stageChannel ch d s).txDirty = setBit s.txDirty ch := rfl
@[simp] theorem stageChannel_txPayload (ch : Nat) (d : List Byte) (s : State) :
    (stageChannel ch d s).txPayload = scatter (channelPositions s.cfg ch) (setData s.cfg ch d) s.txPayload := rfl
@[simp] theorem stageChannel_txBusy (ch : Nat) (d : List Byte) (s : State) :
    (stageChannel ch d s).txBusy = s.txBusy := rfl
@[simp] theorem stageChannel_selfNodeId (ch : Nat) (d : List Byte) (s : State) :
    (stageChannel ch d s).selfNodeId = s.selfNodeId := rfl
@[simp] theorem stageChannel_txFrame (ch : Nat) (d : List Byte) (s : State) :
    (stageChannel ch d s).txFrame = s.txFrame := rfl
@[simp] theorem stageChannel_txIdx (ch : Nat) (d : List Byte) (s : State) :
    (stageChannel ch d s).txIdx = s.txIdx := rfl
@[simp] theorem stageChannel_rxState (ch : Nat) (d : List Byte) (s : State) :
    (stageChannel ch d s).rxState = s.rxState := rfl
@[simp] theorem stageChannel_rxNode (ch : Nat) (d : List Byte) (s : State) :
    (stageChannel ch d s).rxNode = s.rxNode := rfl
@[simp] theorem stageChannel_rxMask (ch : Nat) (d : List Byte) (s : State) :
    (stageChannel ch d s).rxMask = s.rxMask := rfl
@[simp] theorem stageChannel_rxBuf (ch : Nat) (d : List Byte) (s : State) :
    (stageChannel ch d s).rxBuf = s.rxBuf := rfl
@[simp] theorem stageChannel_rxCount (ch : Nat) (d : List Byte) (s : State) :
    (stageChannel ch d s).rxCount = s.rxCount := rfl
@[simp] theorem stageChannel_rxExpected (ch : Nat) (d : List Byte) (s : State) :
    (stageChannel ch d s).rxExpected = s.rxExpected := rfl
@[simp] theorem stageChannel_store (ch : Nat) (d : List Byte) (s : State) :
    (stageChannel ch d s).store = s.store := rfl
@[simp] theorem stageChannel_txOut (ch : Nat) (d : List Byte) (s : State) :
    (stageChannel ch d s).txOut = s.txOut := rfl
@[simp] theorem stageChannel_rxIn (ch : Nat) (d : List Byte) (s : State) :
    (stageChannel ch d s).rxIn = s.rxIn := rfl
@[simp] theorem stageChannel_txBeforeReset (ch : Nat) (d : List Byte) (s : State) :
    (stageChannel ch d s).txBeforeReset = s.txBeforeReset := rfl
@[simp] theorem stageChannel_rxBeforeReset (ch : Nat) (d : List Byte) (s : State) :
    (stageChannel ch d s).rxBeforeReset = s.rxBeforeReset := rfl
@[simp] theorem stageChannel_responses (ch : Nat) (d : List Byte) (s : State) :
    (stageChannel ch d s).responses = s.responses := rfl
@[simp] theorem stageChannel_pending (ch : Nat) (d : List Byte) (s : State) :
    (stageChannel ch d s).pending = s.pending := rfl

@[simp] theorem startFrame_cfg (id : Byte) (s : State) :
    (startFrame id s).cfg = s.cfg := rfl
@[simp] theorem startFrame_txDirty (id : Byte) (s : State) :
    (startFrame id s).txDirty = s.txDirty := rfl
@[simp] theorem startFrame_txPayload (id : Byte) (s : State) :
    (startFrame id s).txPayload = s.txPayload := rfl
@[simp] theorem startFrame_txBusy (id : Byte) (s : State) :
    (startFrame id s).txBusy = true := rfl
@[simp] theorem startFrame_selfNodeId (id : Byte) (s : State) :
    (startFrame id s).selfNodeId = s.selfNodeId := rfl
@[simp] theorem startFrame_txFrame (id : Byte) (s : State) :
    (startFrame id s).txFrame = frame s.cfg id s.txDirty s.txPayload := rfl
@[simp] theorem startFrame_txIdx (id : Byte) (s : State) :
    (startFrame id s).txIdx = 0 := rfl
@[simp] theorem startFrame_rxState (id : Byte) (s : State) :
    (startFrame id s).rxState = s.rxState := rfl
@[simp] theorem startFrame_rxNode (id : Byte) (s : State) :
    (startFrame id s).rxNode = s.rxNode := rfl
@[simp] theorem startFrame_rxMask (id : Byte) (s : State) :
    (startFrame id s).rxMask = s.rxMask := rfl
@[simp] theorem startFrame_rxBuf (id : Byte) (s : State) :
    (startFrame id s).rxBuf = s.rxBuf := rfl
@[simp] theorem startFrame_rxCount (id : Byte) (s : State) :
    (startFrame id s).rxCount = s.rxCount := rfl
@[simp] theorem startFrame_rxExpected (id : Byte) (s : State) :
    (startFrame id s).rxExpected = s.rxExpected := rfl
@[simp] theorem startFrame_store (id : Byte) (s : State) :
    (startFrame id s).store = s.store := rfl
@[simp] theorem startFrame_txOut (id : Byte) (s : State) :
    (startFrame id s).txOut = s.txOut := rfl
@[simp] theorem startFrame_rxIn (id : Byte) (s : State) :
    (startFrame id s).rxIn = s.rxIn := rfl
@[simp] theorem startFrame_txBeforeReset (id : Byte) (s : State) :
    (startFrame id s).txBeforeReset = s.txBeforeReset := rfl
@[simp] theorem startFrame_rxBeforeReset (id : Byte) (s : State) :
    (startFrame id s).rxBeforeReset = s.rxBeforeReset := rfl
@[simp] theorem startFrame_responses (id : Byte) (s : State) :
    (startFrame id s).responses = s.responses := rfl
@[simp] theorem startFrame_pending (id : Byte) (s : State) :
    (startFrame id s).pending = s.pending := rfl

@[simp] theorem handByte_cfg (s : State) :
    (handByte s).cfg = s.cfg := rfl
@[simp] theorem handByte_txDirty (s : State) :
    (handByte s).txDirty = s.txDirty := rfl
@[simp] theorem handByte_txPayload (s : State) :
    (handByte s).txPayload = s.txPayload := rfl
@[simp] theorem handByte_txBusy (s : State) :
    (handByte s).txBusy = s.txBusy := rfl
@[simp] theorem handByte_selfNodeId (s : State) :
    (handByte s).selfNodeId = s.selfNodeId := rfl
@[simp] theorem handByte_txFrame (s : State) :
    (handByte s).txFrame = s.txFrame := rfl
@[simp] theorem handByte_txIdx (s : State) :
    (handByte s).txIdx = s.txIdx + 1 := rfl
@[simp] theorem handByte_rxState (s : State) :
    (handByte s).rxState = s.rxState := rfl
@[simp] theorem handByte_rxNode (s : State) :
    (handByte s).rxNode = s.rxNode := rfl
@[simp] theorem handByte_rxMask (s : State) :
    (handByte s).rxMask = s.rxMask := rfl
@[simp] theorem handByte_rxBuf (s : State) :
    (handByte s).rxBuf = s.rxBuf := rfl
@[simp] theorem handByte_rxCount (s : State) :
    (handByte s).rxCount = s.rxCount := rfl
@[simp] theorem handByte_rxExpected (s : State) :
    (handByte s).rxExpected = s.rxExpected := rfl
@[simp] theorem handByte_store (s : State) :
    (handByte s).store = s.store := rfl
@[simp] theorem handByte_txOut (s : State) :
    (handByte s).txOut = s.txOut ++ [(txData s, txLast s)] := rfl
@[simp] theorem handByte_rxIn (s : State) :
    (handByte s).rxIn = s.rxIn := rfl
@[simp] theorem handByte_txBeforeReset (s : State) :
    (handByte s).txBeforeReset = s.txBeforeReset := rfl
@[simp] theorem handByte_rxBeforeReset (s : State) :
    (handByte s).rxBeforeReset = s.rxBeforeReset := rfl
@[simp] theorem handByte_responses (s : State) :
    (handByte s).responses = s.responses := rfl
@[simp] theorem handByte_pending (s : State) :
    (handByte s).pending = s.pending := rfl

@[simp] theorem completeSend_cfg (s : State) :
    (completeSend s).cfg = s.cfg := rfl
@[simp] theorem completeSend_txDirty (s : State) :
    (completeSend s).txDirty = 0 := rfl
@[simp] theorem completeSend_txPayload (s : State) :
    (completeSend s).txPayload = scatter (positions s.cfg s.txDirty) (zeros (payloadLength s.cfg s.txDirty)) s.txPayload := rfl
@[simp] theorem completeSend_txBusy (s : State) :
    (completeSend s).txBusy = false := rfl
@[simp] theorem completeSend_selfNodeId (s : State) :
    (completeSend s).selfNodeId = s.selfNodeId := rfl
@[simp] theorem completeSend_txFrame (s : State) :
    (completeSend s).txFrame = [] := rfl
@[simp] theorem completeSend_txIdx (s : State) :
    (completeSend s).txIdx = 0 := rfl
@[simp] theorem completeSend_rxState (s : State) :
    (completeSend s).rxState = s.rxState := rfl
@[simp] theorem completeSend_rxNode (s : State) :
    (completeSend s).rxNode = s.rxNode := rfl
@[simp] theorem completeSend_rxMask (s : State) :
    (completeSend s).rxMask = s.rxMask := rfl
@[simp] theorem completeSend_rxBuf (s : State) :
    (completeSend s).rxBuf = s.rxBuf := rfl
@[simp] theorem completeSend_rxCount (s : State) :
    (completeSend s).rxCount = s.rxCount := rfl
@[simp] theorem completeSend_rxExpected (s : State) :
    (completeSend s).rxExpected = s.rxExpected := rfl
@[simp] theorem completeSend_store (s : State) :
    (completeSend s).store = s.store := rfl
@[simp] theorem completeSend_txOut (s : State) :
    (completeSend s).txOut = s.txOut := rfl
@[simp] theorem completeSend_rxIn (s : State) :
    (completeSend s).rxIn = s.rxIn := rfl
@[simp] theorem completeSend_txBeforeReset (s : State) :
    (completeSend s).txBeforeReset = s.txBeforeReset := rfl
@[simp] theorem completeSend_rxBeforeReset (s : State) :
    (completeSend s).rxBeforeReset = s.rxBeforeReset := rfl
@[simp] theorem completeSend_responses (s : State) :
    (completeSend s).responses = s.responses := rfl
@[simp] theorem completeSend_pending (s : State) :
    (completeSend s).pending = s.pending := rfl

@[simp] theorem storeByte_cfg (d : Byte) (s : State) :
    (storeByte d s).cfg = s.cfg := rfl
@[simp] theorem storeByte_txDirty (d : Byte) (s : State) :
    (storeByte d s).txDirty = s.txDirty := rfl
@[simp] theorem storeByte_txPayload (d : Byte) (s : State) :
    (storeByte d s).txPayload = s.txPayload := rfl
@[simp] theorem storeByte_txBusy (d : Byte) (s : State) :
    (storeByte d s).txBusy = s.txBusy := rfl
@[simp] theorem storeByte_selfNodeId (d : Byte) (s : State) :
    (storeByte d s).selfNodeId = s.selfNodeId := rfl
@[simp] theorem storeByte_txFrame (d : Byte) (s : State) :
    (storeByte d s).txFrame = s.txFrame := rfl
@[simp] theorem storeByte_txIdx (d : Byte) (s : State) :
    (storeByte d s).txIdx = s.txIdx := rfl
@[simp] theorem storeByte_rxState (d : Byte) (s : State) :
    (storeByte d s).rxState = s.rxState := rfl
@[simp] theorem storeByte_rxNode (d : Byte) (s : State) :
    (storeByte d s).rxNode = s.rxNode := rfl
@[simp] theorem storeByte_rxMask (d : Byte) (s : State) :
    (storeByte d s).rxMask = s.rxMask := rfl
@[simp] theorem storeByte_rxBuf (d : Byte) (s : State) :
    (storeByte d s).rxBuf = Memory.write s.rxBuf s.rxCount d := rfl
@[simp] theorem storeByte_rxCount (d : Byte) (s : State) :
    (storeByte d s).rxCount = nextCount s := rfl
@[simp] theorem storeByte_rxExpected (d : Byte) (s : State) :
    (storeByte d s).rxExpected = s.rxExpected := rfl
@[simp] theorem storeByte_store (d : Byte) (s : State) :
    (storeByte d s).store = s.store := rfl
@[simp] theorem storeByte_txOut (d : Byte) (s : State) :
    (storeByte d s).txOut = s.txOut := rfl
@[simp] theorem storeByte_rxIn (d : Byte) (s : State) :
    (storeByte d s).rxIn = s.rxIn := rfl
@[simp] theorem storeByte_txBeforeReset (d : Byte) (s : State) :
    (storeByte d s).txBeforeReset = s.txBeforeReset := rfl
@[simp] theorem storeByte_rxBeforeReset (d : Byte) (s : State) :
    (storeByte d s).rxBeforeReset = s.rxBeforeReset := rfl
@[simp] theorem storeByte_responses (d : Byte) (s : State) :
    (storeByte d s).responses = s.responses := rfl
@[simp] theorem storeByte_pending (d : Byte) (s : State) :
    (storeByte d s).pending = s.pending := rfl

@[simp] theorem commit_cfg (s : State) :
    (commit s).cfg = s.cfg := rfl
@[simp] theorem commit_txDirty (s : State) :
    (commit s).txDirty = s.txDirty := rfl
@[simp] theorem commit_txPayload (s : State) :
    (commit s).txPayload = s.txPayload := rfl
@[simp] theorem commit_txBusy (s : State) :
    (commit s).txBusy = s.txBusy := rfl
@[simp] theorem commit_selfNodeId (s : State) :
    (commit s).selfNodeId = s.selfNodeId := rfl
@[simp] theorem commit_txFrame (s : State) :
    (commit s).txFrame = s.txFrame := rfl
@[simp] theorem commit_txIdx (s : State) :
    (commit s).txIdx = s.txIdx := rfl
@[simp] theorem commit_rxState (s : State) :
    (commit s).rxState = s.rxState := rfl
@[simp] theorem commit_rxNode (s : State) :
    (commit s).rxNode = s.rxNode := rfl
@[simp] theorem commit_rxMask (s : State) :
    (commit s).rxMask = s.rxMask := rfl
@[simp] theorem commit_rxBuf (s : State) :
    (commit s).rxBuf = s.rxBuf := rfl
@[simp] theorem commit_rxCount (s : State) :
    (commit s).rxCount = s.rxCount := rfl
@[simp] theorem commit_rxExpected (s : State) :
    (commit s).rxExpected = s.rxExpected := rfl
@[simp] theorem commit_store (s : State) :
    (commit s).store = s.store.modify s.rxNode.toNat (fun e =>
      { valid := s.rxMask
        payload := scatter (positions s.cfg s.rxMask) (s.rxBuf.take s.rxExpected) e.payload }) := rfl
@[simp] theorem commit_txOut (s : State) :
    (commit s).txOut = s.txOut := rfl
@[simp] theorem commit_rxIn (s : State) :
    (commit s).rxIn = s.rxIn := rfl
@[simp] theorem commit_txBeforeReset (s : State) :
    (commit s).txBeforeReset = s.txBeforeReset := rfl
@[simp] theorem commit_rxBeforeReset (s : State) :
    (commit s).rxBeforeReset = s.rxBeforeReset := rfl
@[simp] theorem commit_responses (s : State) :
    (commit s).responses = s.responses := rfl
@[simp] theorem commit_pending (s : State) :
    (commit s).pending = s.pending := rfl

@[simp] theorem enterState_cfg (st : RxState) (s : State) :
    (enterState st s).cfg = s.cfg := rfl
@[simp] theorem enterState_txDirty (st : RxState) (s : State) :
    (enterState st s).txDirty = s.txDirty := rfl
@[simp] theorem enterState_txPayload (st : RxState) (s : State) :
    (enterState st s).txPayload = s.txPayload := rfl
@[simp] theorem enterState_txBusy (st : RxState) (s : State) :
    (enterState st s).txBusy = s.txBusy := rfl
@[simp] theorem enterState_selfNodeId (st : RxState) (s : State) :
    (enterState st s).selfNodeId = s.selfNodeId := rfl
@[simp] theorem enterState_txFrame (st : RxState) (s : State) :
    (enterState st s).txFrame = s.txFrame := rfl
@[simp] theorem enterState_txIdx (st : RxState) (s : State) :
    (enterState st s).txIdx = s.txIdx := rfl
@[simp] theorem enterState_rxState (st : RxState) (s : State) :
    (enterState st s).rxState = st := rfl
@[simp] theorem enterState_rxNode (st : RxState) (s : State) :
    (enterState st s).rxNode = s.rxNode := rfl
@[simp] theorem enterState_rxMask (st : RxState) (s : State) :
    (enterState st s).rxMask = s.rxMask := rfl
@[simp] theorem enterState_rxBuf (st : RxState) (s : State) :
    (enterState st s).rxBuf = s.rxBuf := rfl
@[simp] theorem enterState_rxCount (st : RxState) (s : State) :
    (enterState st s).rxCount = s.rxCount := rfl
@[simp] theorem enterState_rxExpected (st : RxState) (s : State) :
    (enterState st s).rxExpected = s.rxExpected := rfl
@[simp] theorem enterState_store (st : RxState) (s : State) :
    (enterState st s).store = s.store := rfl
@[simp] theorem enterState_txOut (st : RxState) (s : State) :
    (enterState st s).txOut = s.txOut := rfl
@[simp] theorem enterState_rxIn (st : RxState) (s : State) :
    (enterState st s).rxIn = s.rxIn := rfl
@[simp] theorem enterState_txBeforeReset (st : RxState) (s : State) :
    (enterState st s).txBeforeReset = s.txBeforeReset := rfl
@[simp] theorem enterState_rxBeforeReset (st : RxState) (s : State) :
    (enterState st s).rxBeforeReset = s.rxBeforeReset := rfl
@[simp] theorem enterState_responses (st : RxState) (s : State) :
    (enterState st s).responses = s.responses := rfl
@[simp] theorem enterState_pending (st : RxState) (s : State) :
    (enterState st s).pending = s.pending := rfl

@[simp] theorem captureNode_cfg (data : Byte) (s : State) :
    (captureNode data s).cfg = s.cfg := rfl
@[simp] theorem captureNode_txDirty (data : Byte) (s : State) :
    (captureNode data s).txDirty = s.txDirty := rfl
@[simp] theorem captureNode_txPayload (data : Byte) (s : State) :
    (captureNode data s).txPayload = s.txPayload := rfl
@[simp] theorem captureNode_txBusy (data : Byte) (s : State) :
    (captureNode data s).txBusy = s.txBusy := rfl
@[simp] theorem captureNode_selfNodeId (data : Byte) (s : State) :
    (captureNode data s).selfNodeId = s.selfNodeId := rfl
@[simp] theorem captureNode_txFrame (data : Byte) (s : State) :
    (captureNode data s).txFrame = s.txFrame := rfl
@[simp] theorem captureNode_txIdx (data : Byte) (s : State) :
    (captureNode data s).txIdx = s.txIdx := rfl
@[simp] theorem captureNode_rxState (data : Byte) (s : State) :
    (captureNode data s).rxState = s.rxState := rfl
@[simp] theorem captureNode_rxNode (data : Byte) (s : State) :
    (captureNode data s).rxNode = data := rfl
@[simp] theorem captureNode_rxMask (data : Byte) (s : State) :
    (captureNode data s).rxMask = s.rxMask := rfl
@[simp] theorem captureNode_rxBuf (data : Byte) (s : State) :
    (captureNode data s).rxBuf = s.rxBuf := rfl
@[simp] theorem captureNode_rxCount (data : Byte) (s : State) :
    (captureNode data s).rxCount = s.rxCount := rfl
@[simp] theorem captureNode_rxExpected (data : Byte) (s : State) :
    (captureNode data s).rxExpected = s.rxExpected := rfl
@[simp] theorem captureNode_store (data : Byte) (s : State) :
    (captureNode data s).store = s.store := rfl
@[simp] theorem captureNode_txOut (data : Byte) (s : State) :
    (captureNode data s).txOut = s.txOut := rfl
@[simp] theorem captureNode_rxIn (data : Byte) (s : State) :
    (captureNode data s).rxIn = s.rxIn := rfl
@[simp] theorem captureNode_txBeforeReset (data : Byte) (s : State) :
    (captureNode data s).txBeforeReset = s.txBeforeReset := rfl
@[simp] theorem captureNode_rxBeforeReset (data : Byte) (s : State) :
    (captureNode data s).rxBeforeReset = s.rxBeforeReset := rfl
@[simp] theorem captureNode_responses (data : Byte) (s : State) :
    (captureNode data s).responses = s.responses := rfl
@[simp] theorem captureNode_pending (data : Byte) (s : State) :
    (captureNode data s).pending = s.pending := rfl

@[simp] theorem captureMask_cfg (data : Byte) (s : State) :
    (captureMask data s).cfg = s.cfg := rfl
@[simp] theorem captureMask_txDirty (data : Byte) (s : State) :
    (captureMask data s).txDirty = s.txDirty := rfl
@[simp] theorem captureMask_txPayload (data : Byte) (s : State) :
    (captureMask data s).txPayload = s.txPayload := rfl
@[simp] theorem captureMask_txBusy (data : Byte) (s : State) :
    (captureMask data s).txBusy = s.txBusy := rfl
@[simp] theorem captureMask_selfNodeId (data : Byte) (s : State) :
    (captureMask data s).selfNodeId = s.selfNodeId := rfl
@[simp] theorem captureMask_txFrame (data : Byte) (s : State) :
    (captureMask data s).txFrame = s.txFrame := rfl
@[simp] theorem captureMask_txIdx (data : Byte) (s : State) :
    (captureMask data s).txIdx = s.txIdx := rfl
@[simp] theorem captureMask_rxState (data : Byte) (s : State) :
    (captureMask data s).rxState = s.rxState := rfl
@[simp] theorem captureMask_rxNode (data : Byte) (s : State) :
    (captureMask data s).rxNode = s.rxNode := rfl
@[simp] theorem captureMask_rxMask (data : Byte) (s : State) :
    (captureMask data s).rxMask = data := rfl
@[simp] theorem captureMask_rxBuf (data : Byte) (s : State) :
    (captureMask data s).rxBuf = s.rxBuf := rfl
@[simp] theorem captureMask_rxCount (data : Byte) (s : State) :
    (captureMask data s).rxCount = 0 := rfl
@[simp] theorem captureMask_rxExpected (data : Byte) (s : State) :
    (captureMask data s).rxExpected = toCounter s.cfg (payloadLength s.cfg data) := rfl
@[simp] theorem captureMask_store (data : Byte) (s : State) :
    (captureMask data s).store = s.store := rfl
@[simp] theorem captureMask_txOut (data : Byte) (s : State) :
    (captureMask data s).txOut = s.txOut := rfl
@[simp] theorem captureMask_rxIn (data : Byte) (s : State) :
    (captureMask data s).rxIn = s.rxIn := rfl
@[simp] theorem captureMask_txBeforeReset (data : Byte) (s : State) :
    (captureMask data s).txBeforeReset = s.txBeforeReset := rfl
@[simp] theorem captureMask_rxBeforeReset (data : Byte) (s : State) :
    (captureMask data s).rxBeforeReset = s.rxBeforeReset := rfl
@[simp] theorem captureMask_responses (data : Byte) (s : State) :
    (captureMask data s).responses = s.responses := rfl
@[simp] theorem captureMask_pending (data : Byte) (s : State) :
    (captureMask data s).pending = s.pending := rfl

@[simp] theorem consumeByte_cfg (data : Byte) (s : State) :
    (consumeByte data s).cfg = s.cfg := rfl
@[simp] theorem consumeByte_txDirty (data : Byte) (s : State) :
    (consumeByte data s).txDirty = s.txDirty := rfl
@[simp] theorem consumeByte_txPayload (data : Byte) (s : State) :
    (consumeByte data s).txPayload = s.txPayload := rfl
@[simp] theorem consumeByte_txBusy (data : Byte) (s : State) :
    (consumeByte data s).txBusy = s.txBusy := rfl
@[simp] theorem consumeByte_selfNodeId (data : Byte) (s : State) :
    (consumeByte data s).selfNodeId = s.selfNodeId := rfl
@[simp] theorem consumeByte_txFrame (data : Byte) (s : State) :
    (consumeByte data s).txFrame = s.txFrame := rfl
@[simp] theorem consumeByte_txIdx (data : Byte) (s : State) :
    (consumeByte data s).txIdx = s.txIdx := rfl
@[simp] theorem consumeByte_rxState (data : Byte) (s : State) :
    (consumeByte data s).rxState = s.rxState := rfl
@[simp] theorem consumeByte_rxNode (data : Byte) (s : State) :
    (consumeByte data s).rxNode = s.rxNode := rfl
@[simp] theorem consumeByte_rxMask (data : Byte) (s : State) :
    (consumeByte data s).rxMask = s.rxMask := rfl
@[simp] theorem consumeByte_rxBuf (data : Byte) (s : State) :
    (consumeByte data s).rxBuf = s.rxBuf := rfl
@[simp] theorem consumeByte_rxCount (data : Byte) (s : State) :
    (consumeByte data s).rxCount = s.rxCount := rfl
@[simp] theorem consumeByte_nextCount (data : Byte) (s : State) :
    nextCount (consumeByte data s) = nextCount s := rfl
@[simp] theorem consumeByte_rxExpected (data : Byte) (s : State) :
    (consumeByte data s).rxExpected = s.rxExpected := rfl
@[simp] theorem consumeByte_store (data : Byte) (s : State) :
    (consumeByte data s).store = s.store := rfl
@[simp] theorem consumeByte_txOut (data : Byte) (s : State) :
    (consumeByte data s).txOut = s.txOut := rfl
@[simp] theorem consumeByte_rxIn (data : Byte) (s : State) :
    (consumeByte data s).rxIn = s.rxIn ++ [data] := rfl
@[simp] theorem consumeByte_txBeforeReset (data : Byte) (s : State) :
    (consumeByte data s).txBeforeReset = s.txBeforeReset := rfl
@[simp] theorem consumeByte_rxBeforeReset (data : Byte) (s : State) :
    (consumeByte data s).rxBeforeReset = s.rxBeforeReset := rfl
@[simp] theorem consumeByte_responses (data : Byte) (s : State) :
    (consumeByte data s).responses = s.responses := rfl
@[simp] theorem consumeByte_pending (data : Byte) (s : State) :
    (consumeByte data s).pending = s.pending := rfl

end Sys2Proof.Machine
end

