-- ==== Sys2Proof/Laws/Decoder.lean ====
section
/-! SUPPORT. What an RX step does: the rule of each state, its effects, its frame, append and commit. -/

namespace Sys2Proof.Machine

variable {s : State} {d data : Byte} {n p : Nat}

/-- Below the payload's total size the count goes up by one (R138: no overflow is possible). -/
theorem nextCount_of_lt (h : s.rxCount < s.cfg.T) : nextCount s = s.rxCount + 1 := toCounter_of_le h

/-- A byte stored below the payload's total size (R138). -/
theorem storeByte_eq (h : s.rxCount < s.cfg.T) : storeByte d s =
    { s with rxBuf := Memory.write s.rxBuf s.rxCount d, rxCount := s.rxCount + 1 } := by
  rw [storeByte, nextCount_of_lt h]

/-- The mask captured (R134): its payload's length is kept whole by the counter. -/
theorem captureMask_eq : captureMask data s =
    { s with rxMask := data, rxExpected := payloadLength s.cfg data, rxCount := 0 } := by
  simp [captureMask]

theorem append_last (h : nextCount s = s.rxExpected) :
    append d s = enterState .idle (commit (storeByte d s)) := if_pos h

theorem append_more (h : nextCount s ≠ s.rxExpected) : append d s = enterState .getData (storeByte d s) := if_neg h

theorem append_cases (d : Byte) (s : State) :
    (nextCount s = s.rxExpected ∧ append d s = enterState .idle (commit (storeByte d s))) ∨
    (nextCount s ≠ s.rxExpected ∧ append d s = enterState .getData (storeByte d s)) := by
  by_cases h : nextCount s = s.rxExpected
  · exact .inl ⟨h, append_last h⟩
  · exact .inr ⟨h, append_more h⟩

/-! The rule of each state, on the state that has consumed the byte (R131 to R137). -/

theorem rxStep_idle (h : s.rxState = .idle) : rxStep data s = rxIdle data (consumeByte data s) := by
  simp [rxStep, preCheck, rxDispatch, h]

theorem rxStep_waitNodeId (h : s.rxState = .waitNodeId) :
    rxStep data s = rxWaitNodeId data (consumeByte data s) := by simp [rxStep, preCheck, rxDispatch, h]

theorem rxStep_waitBitmask (h : s.rxState = .waitBitmask) :
    rxStep data s = rxWaitBitmask data (consumeByte data s) := by simp [rxStep, preCheck, rxDispatch, h]

theorem rxStep_getData (h : s.rxState = .getData) : rxStep data s = rxGetData data (consumeByte data s) := by
  simp [rxStep, preCheck, rxDispatch, h]

theorem rxStep_demoted (h : s.rxState = .gotSymbolPending) (hd : data ≠ marker) :
    rxStep data s = rxWaitBitmask data (consumeByte data s) := by simp [rxStep, preCheck, rxDispatch, h, hd]

theorem rxStep_escaped (h : s.rxState = .gotSymbolPending) :
    rxStep marker s = append marker (consumeByte marker s) := by
  simp [rxStep, preCheck, rxDispatch, h, rxGotSymbolPending]

/-- A literal payload byte and the second byte of an escape pair are both appended (R136, R137). -/
theorem rxStep_append
    (h : s.rxState = .getData ∧ data ≠ marker ∨ s.rxState = .gotSymbolPending ∧ data = marker) :
    rxStep data s = append data (consumeByte data s) := by
  rcases h with ⟨h, hd⟩ | ⟨h, rfl⟩
  · rw [rxStep_getData h, rxGetData, if_neg hd]
  · exact rxStep_escaped h

/-- The marker in GetData opens the escape lookahead (R135). -/
theorem rxStep_lookahead (h : s.rxState = .getData) :
    rxStep marker s = enterState .gotSymbolPending (consumeByte marker s) := by
  rw [rxStep_getData h, rxGetData, if_pos rfl]

/-- Everything an RX step can do: only move the control state, capture the node id, capture the mask and its counters, or
append. -/
inductive RxEffect (data : Byte) (s : State) : State → Prop where
  | moved (st : RxState) (h : st = .idle ∨ st = .waitNodeId ∨ st = .gotSymbolPending ∧ s.rxState = .getData) :
      RxEffect data s (enterState st (consumeByte data s))
  | nodeCaptured (h : s.rxState = .waitNodeId) (hm : data ≠ marker) (hn : data.toNat < s.cfg.N) :
      RxEffect data s (enterState .waitBitmask (captureNode data (consumeByte data s)))
  | maskCaptured (h : s.rxState = .waitBitmask ∨ s.rxState = .gotSymbolPending) (hm : data ≠ marker) (h0 : data ≠ 0)
      (hc : data.toNat < 2 ^ s.cfg.C) :
      RxEffect data s (enterState .getData (captureMask data (consumeByte data s)))
  | appended (h : s.rxState = .getData ∧ data ≠ marker ∨ s.rxState = .gotSymbolPending ∧ data = marker) :
      RxEffect data s (append data (consumeByte data s))

theorem rxWaitBitmask_effect (h : s.rxState = .waitBitmask ∨ s.rxState = .gotSymbolPending) :
    RxEffect data s (rxWaitBitmask data (consumeByte data s)) := by
  unfold rxWaitBitmask
  split
  · exact .moved .waitNodeId (by simp)
  · split
    · exact .moved .idle (by simp)
    · split
      · exact .moved .idle (by simp)
      · exact .maskCaptured h ‹_› ‹_› (Nat.lt_of_not_le ‹_›)

theorem rxStep_effect (data : Byte) (s : State) : RxEffect data s (rxStep data s) := by
  cases h : s.rxState with
  | idle =>
    rw [rxStep_idle h, rxIdle]
    split
    · exact .moved .waitNodeId (by simp)
    · exact .moved .idle (by simp)
  | waitNodeId =>
    rw [rxStep_waitNodeId h, rxWaitNodeId]
    split
    · exact .moved .waitNodeId (by simp)
    · split
      · exact .moved .idle (by simp)
      · exact .nodeCaptured h ‹_› (Nat.lt_of_not_le ‹_›)
  | waitBitmask => rw [rxStep_waitBitmask h]; exact rxWaitBitmask_effect (.inl h)
  | getData =>
    by_cases hm : data = marker
    · subst hm; rw [rxStep_lookahead h]; exact .moved .gotSymbolPending (by simp [h])
    · rw [rxStep_append (.inl ⟨h, hm⟩)]; exact .appended (.inl ⟨h, hm⟩)
  | gotSymbolPending =>
    by_cases hm : data = marker
    · rw [rxStep_append (.inr ⟨h, hm⟩)]; exact .appended (.inr ⟨h, hm⟩)
    · rw [rxStep_demoted h hm]; exact rxWaitBitmask_effect (.inr h)

/-- `s` with the Receive State, the store and `rx_in` of `t`: all that an RX step writes (R130). -/
def withReceive (s : State) (t : State) : State :=
  { s with
    rxState := t.rxState, rxNode := t.rxNode, rxMask := t.rxMask, rxBuf := t.rxBuf, rxCount := t.rxCount
    rxExpected := t.rxExpected, store := t.store, rxIn := t.rxIn }

theorem RxEffect.frame {t : State} (he : RxEffect data s t) : t = withReceive s t := by
  cases he with
  | moved st h => rfl
  | nodeCaptured h hm hn => rfl
  | maskCaptured h hm h0 hc => rfl
  | appended h => rcases append_cases data (consumeByte data s) with ⟨-, e⟩ | ⟨-, e⟩ <;> rw [e] <;> rfl

theorem RxEffect.consumed {t : State} (he : RxEffect data s t) : t.rxIn = s.rxIn ++ [data] := by
  cases he with
  | moved st h => rfl
  | nodeCaptured h hm hn => rfl
  | maskCaptured h hm h0 hc => rfl
  | appended h => rcases append_cases data (consumeByte data s) with ⟨-, e⟩ | ⟨-, e⟩ <;> rw [e] <;> rfl

/-- An RX step writes the Receive State, the store and `rx_in` only (R130). -/
theorem rxStep_frame (data : Byte) (s : State) : rxStep data s = withReceive s (rxStep data s) :=
  (rxStep_effect data s).frame

@[simp] theorem rxStep_rxIn (data : Byte) (s : State) : (rxStep data s).rxIn = s.rxIn ++ [data] :=
  (rxStep_effect data s).consumed

@[simp] theorem rxStep_cfg (data : Byte) (s : State) : (rxStep data s).cfg = s.cfg := by rw [rxStep_frame]; rfl
@[simp] theorem rxStep_txDirty (data : Byte) (s : State) : (rxStep data s).txDirty = s.txDirty := by
  rw [rxStep_frame]; rfl
@[simp] theorem rxStep_txPayload (data : Byte) (s : State) : (rxStep data s).txPayload = s.txPayload := by
  rw [rxStep_frame]; rfl
@[simp] theorem rxStep_txBusy (data : Byte) (s : State) : (rxStep data s).txBusy = s.txBusy := by
  rw [rxStep_frame]; rfl
@[simp] theorem rxStep_selfNodeId (data : Byte) (s : State) : (rxStep data s).selfNodeId = s.selfNodeId := by
  rw [rxStep_frame]; rfl
@[simp] theorem rxStep_txFrame (data : Byte) (s : State) : (rxStep data s).txFrame = s.txFrame := by
  rw [rxStep_frame]; rfl
@[simp] theorem rxStep_txIdx (data : Byte) (s : State) : (rxStep data s).txIdx = s.txIdx := by
  rw [rxStep_frame]; rfl
@[simp] theorem rxStep_txOut (data : Byte) (s : State) : (rxStep data s).txOut = s.txOut := by
  rw [rxStep_frame]; rfl
@[simp] theorem rxStep_txBeforeReset (data : Byte) (s : State) :
    (rxStep data s).txBeforeReset = s.txBeforeReset := by rw [rxStep_frame]; rfl
@[simp] theorem rxStep_rxBeforeReset (data : Byte) (s : State) :
    (rxStep data s).rxBeforeReset = s.rxBeforeReset := by rw [rxStep_frame]; rfl
@[simp] theorem rxStep_responses (data : Byte) (s : State) : (rxStep data s).responses = s.responses := by
  rw [rxStep_frame]; rfl
@[simp] theorem rxStep_pending (data : Byte) (s : State) : (rxStep data s).pending = s.pending := by
  rw [rxStep_frame]; rfl

@[simp] theorem rxSteps_nil (s : State) : rxSteps [] s = s := rfl

@[simp] theorem rxSteps_cons (b : Byte) (bs : List Byte) (s : State) :
    rxSteps (b :: bs) s = rxSteps bs (rxStep b s) := rfl

theorem rxSteps_append (as bs : List Byte) (s : State) : rxSteps (as ++ bs) s = rxSteps bs (rxSteps as s) := by
  simp [rxSteps, List.foldl_append]

/-- RX steps write the Receive State, the store and `rx_in` only. -/
theorem rxSteps_frame : ∀ (bs : List Byte) (s : State), rxSteps bs s = withReceive s (rxSteps bs s)
  | [], _ => rfl
  | b :: bs, s => by rw [rxSteps_cons, rxSteps_frame bs, rxStep_frame b s]; rfl

@[simp] theorem rxSteps_rxIn : ∀ (bs : List Byte) (s : State), (rxSteps bs s).rxIn = s.rxIn ++ bs
  | [], _ => by simp
  | b :: bs, s => by rw [rxSteps_cons, rxSteps_rxIn bs, rxStep_rxIn, List.append_assoc]; rfl

/-- `s` with the Transmit State, `tx_out` and the responses of `t`: all that a command or a TX step writes (R65). -/
def withTransmit (s t : State) : State :=
  { s with
    txDirty := t.txDirty, txPayload := t.txPayload, txBusy := t.txBusy, selfNodeId := t.selfNodeId
    txFrame := t.txFrame, txIdx := t.txIdx, txOut := t.txOut, responses := t.responses }

/-- An RX step neither reads nor writes the Transmit State (R65). -/
theorem rxStep_withTransmit (data : Byte) (s t : State) :
    rxStep data (withTransmit s t) = withTransmit (rxStep data s) t := by
  have app : ∀ u, append data (withTransmit u t) = withTransmit (append data u) t := by
    intro u
    by_cases h : nextCount u = u.rxExpected
    · rw [append_last h]; exact append_last (s := withTransmit u t) h
    · rw [append_more h]; exact append_more (s := withTransmit u t) h
  have app' : append marker (withTransmit (consumeByte data s) t) = withTransmit (append marker (consumeByte data s)) t := by
    by_cases h : nextCount (consumeByte data s) = s.rxExpected
    · rw [append_last (s := consumeByte data s) h]
      exact append_last (s := withTransmit (consumeByte data s) t) h
    · rw [append_more (s := consumeByte data s) h]
      exact append_more (s := withTransmit (consumeByte data s) t) h
  show rxDispatch (preCheck s.rxState data) data (withTransmit (consumeByte data s) t) =
    withTransmit (rxDispatch (preCheck s.rxState data) data (consumeByte data s)) t
  generalize preCheck s.rxState data = st
  cases st with
  | idle => simp only [rxDispatch, rxIdle]; split <;> rfl
  | waitNodeId =>
    have by_cfg : ∀ u : State, u.cfg = s.cfg → rxWaitNodeId data u =
        if data = marker then enterState .waitNodeId u
        else if s.cfg.N ≤ data.toNat then enterState .idle u
        else enterState .waitBitmask (captureNode data u) := fun u hu => by rw [rxWaitNodeId, hu]
    rw [rxDispatch, rxDispatch, by_cfg (withTransmit (consumeByte data s) t) rfl, by_cfg (consumeByte data s) rfl]
    split
    · rfl
    · split <;> rfl
  | waitBitmask =>
    have by_cfg : ∀ u : State, u.cfg = s.cfg → rxWaitBitmask data u =
        if data = marker then enterState .waitNodeId u
        else if 2 ^ s.cfg.C ≤ data.toNat then enterState .idle u
        else if data = 0 then enterState .idle u
        else enterState .getData (captureMask data u) := fun u hu => by rw [rxWaitBitmask, hu]
    rw [rxDispatch, rxDispatch, by_cfg (withTransmit (consumeByte data s) t) rfl, by_cfg (consumeByte data s) rfl]
    split
    · rfl
    · split
      · rfl
      · split <;> rfl
  | getData =>
    simp only [rxDispatch, rxGetData]
    split
    · rfl
    · exact app _
  | gotSymbolPending => exact app'

/-- The committed entry (R139). -/
theorem commit_entry {old : StoreEntry} (h : s.store[s.rxNode.toNat]? = some old) :
    (commit s).store[s.rxNode.toNat]? = some
      { valid := s.rxMask
        payload := scatter (positions s.cfg s.rxMask) (s.rxBuf.take s.rxExpected) old.payload } := by
  simp [h]

/-- Commit touches no other node (R139). -/
theorem commit_other (h : n ≠ s.rxNode.toNat) : (commit s).store[n]? = s.store[n]? := by
  simp [Ne.symm h]

/-- The states of a decoder that is collecting payload, between two payload bytes, while the frame is not complete: the
bytes `bs` received as `wire` since the mask was captured. -/
def collected (wire bs : List Byte) (s : State) : State :=
  { s with
    rxIn := s.rxIn ++ wire
    rxBuf := scatter (List.range' s.rxCount bs.length) bs s.rxBuf
    rxCount := s.rxCount + bs.length }

@[simp] theorem collected_nil (s : State) : collected [] [] s = s := by simp [collected]

/-- One un-stuffed payload byte, received as its stuffed bytes in GetData, is appended once (R135 to R137). -/
theorem rxSteps_stuff (h : s.rxState = .getData) (hT : s.rxCount < s.cfg.T) (d : Byte) :
    rxSteps (stuff d) s =
      if s.rxCount + 1 = s.rxExpected then enterState .idle (commit (collected (stuff d) [d] s))
      else collected (stuff d) [d] s := by
  have key : ∀ u : State, u.cfg = s.cfg → u.rxCount = s.rxCount → u.rxExpected = s.rxExpected →
      enterState .getData { u with rxBuf := Memory.write u.rxBuf u.rxCount d, rxCount := u.rxCount + 1 } = collected (stuff d) [d] s →
      append d u = if s.rxCount + 1 = s.rxExpected then enterState .idle (commit (collected (stuff d) [d] s))
        else collected (stuff d) [d] s := fun u h0 h1 h2 h3 => by
    have hu : u.rxCount < u.cfg.T := by rw [h0, h1]; exact hT
    rw [append, nextCount_of_lt hu, storeByte_eq hu, ← h3, ← h1, ← h2]; rfl
  by_cases hd : d = marker
  · subst hd
    rw [show stuff marker = [marker, marker] from rfl, rxSteps_cons, rxSteps_cons, rxSteps_nil, rxStep_lookahead h,
      rxStep_escaped rfl]
    refine key _ rfl rfl rfl ?_
    cases s; cases h; simp [enterState, consumeByte, collected, scatter, stuff]
  · have hs : stuff d = [d] := if_neg hd
    rw [hs] at key ⊢
    rw [rxSteps_cons, rxSteps_nil, rxStep_append (.inl ⟨h, hd⟩)]
    refine key _ rfl rfl rfl ?_
    cases s; cases h; simp [enterState, consumeByte, collected, scatter]

end Sys2Proof.Machine
end

