-- ==== Sys2Proof/Laws/Decoding.lean ====
section
/-! SUPPORT. The fields of a command word's low byte, the decoder on a whole command word, and the numbering of words. -/

namespace Sys2Proof

variable {smax : Nat} {low ch node : Byte} {d : List Byte}

@[simp] theorem opField_lowByte : ∀ (rsv : BitVec 5) (op : BitVec 3), opField (lowByte rsv op) = op := by decide

@[simp] theorem rsvField_lowByte : ∀ (rsv : BitVec 5) (op : BitVec 3), rsvField (lowByte rsv op) = rsv := by decide

theorem opField_toNat (b : Byte) : (opField b).toNat = b.toNat % 8 := by
  simp [opField]

theorem rsvField_toNat (b : Byte) : (rsvField b).toNat = b.toNat / 8 := by
  have := b.isLt
  simp only [rsvField, BitVec.extractLsb'_toNat, Nat.shiftRight_eq_div_pow]
  omega

/-- A command word of the port's width is decoded from its fields, whatever they are (R71). -/
theorem decode_command (h : d.length = smax) :
    decode smax ⟨.cmd, low :: ch :: node :: d⟩ = .ok (decodeCommand low ch node d) := by
  simp [decode, h]

theorem decode_commandEvent (h : d.length = smax) :
    decode smax (commandEvent low ch node d) = .ok (decodeCommand low ch node d) := decode_command h

@[simp] theorem lowBytes_length : ∀ n w, (lowBytes n w).length = n
  | 0, _ => rfl
  | n + 1, w => by simp [lowBytes, lowBytes_length n]

end Sys2Proof
end

