-- ==== Sys2Proof/Laws/Encoder.lean ====
section
/-! SUPPORT. What the encoder's operations do: SET's bytes and bit, the frame of SEND, and the two cases of a TX step. -/

namespace Sys2Proof.Machine

variable {s : State} {c : Config} {ch i j p : Nat} {d : List Byte} {mask : Byte}

@[simp] theorem getLsbD_setBit (h : ch < 8) :
    (setBit mask ch).getLsbD i = (mask.getLsbD i || i == ch) := by
  simp only [setBit, BitVec.getLsbD_or, BitVec.getLsbD_twoPow, h, decide_true, Bool.true_and]
  congr 1
  by_cases e : i = ch
  · simp [e]
  · simp [e, Ne.symm e]

@[simp] theorem setData_length : (setData c ch d).length = c.size ch := by simp [setData]

theorem setData_getElem? (h : j < c.size ch) : (setData c ch d)[j]? = some (d.getD j 0) := by
  simp [setData, h]

/-- SET writes its data at the channel's positions (R103). -/
theorem stageChannel_read (hs : s.txPayload.length = s.cfg.T) (hc : ch < s.cfg.C) (hj : j < s.cfg.size ch) :
    Memory.read (stageChannel ch d s).txPayload (s.cfg.offset ch + j) = d.getD j 0 := by
  rw [stageChannel_txPayload]
  exact read_scatter_at channelPositions_nodup (fun p hp => hs ▸ channelPositions_lt hc hp)
    (channelPositions_getElem? hj) (setData_getElem? hj)

/-- SET writes no other byte (R103). -/
theorem stageChannel_read_other (hp : p ∉ channelPositions s.cfg ch) :
    Memory.read (stageChannel ch d s).txPayload p = Memory.read s.txPayload p := by
  rw [stageChannel_txPayload]; exact read_scatter_other hp

/-- `L(mask)` as R11 writes it. -/
theorem positions_eq : positions c mask =
    ((List.range c.C).filter (fun i => mask.getLsbD i)).flatMap
      (fun i => (List.range (c.size i)).map (fun j => c.offset i + j)) := by
  rw [positions]
  generalize List.range c.C = l
  induction l with
  | nil => rfl
  | cons a l ih =>
    rw [List.flatMap_cons, ih]
    by_cases h : mask.getLsbD a
    · simp [h, channelPositions, List.range'_eq_map_range]
    · simp [h]

/-- Completion zeroes the positions of the channels just sent (R108). -/
theorem completeSend_read_sent (hs : s.txPayload.length = s.cfg.T) (hp : p ∈ positions s.cfg s.txDirty) :
    Memory.read (completeSend s).txPayload p = 0 := by
  rw [completeSend_txPayload]
  exact read_scatter_zeros positions_nodup (fun p hp => hs ▸ positions_lt hp) hp

/-- Completion writes no other byte (R108). -/
theorem completeSend_read_other (hp : p ∉ positions s.cfg s.txDirty) :
    Memory.read (completeSend s).txPayload p = Memory.read s.txPayload p := by
  rw [completeSend_txPayload]; exact read_scatter_other hp

/-- The cases of a TX step (R107, R108). -/
theorem txStep_cases (s : State) :
    (s.txBusy = false ∧ txStep s = s) ∨
    (s.txBusy = true ∧ s.txIdx + 1 ≠ s.txFrame.length ∧ txStep s = handByte s) ∨
    (s.txBusy = true ∧ s.txIdx + 1 = s.txFrame.length ∧ txStep s = completeSend (handByte s)) := by
  unfold txStep txLast
  cases hb : s.txBusy <;> by_cases hl : s.txIdx + 1 = s.txFrame.length <;> simp [hl]

theorem txStep_idle (h : s.txBusy = false) : txStep s = s := by simp [txStep, h]

theorem txStep_midFrame (hb : s.txBusy = true) (h : s.txIdx + 1 ≠ s.txFrame.length) : txStep s = handByte s := by
  simp [txStep, txLast, hb, h]

theorem txStep_lastByte (hb : s.txBusy = true) (h : s.txIdx + 1 = s.txFrame.length) :
    txStep s = completeSend (handByte s) := by
  simp [txStep, txLast, hb, h]

/-- The pair the sink takes (R107). -/
theorem handByte_eq {b : Byte} (h : s.txFrame[s.txIdx]? = some b) : handByte s =
    { s with txOut := s.txOut ++ [(b, s.txIdx + 1 == s.txFrame.length)], txIdx := s.txIdx + 1 } := by
  simp [handByte, txData, txLast, h]

end Sys2Proof.Machine
end

