-- ==== Sys2Proof/Laws/Exec.lean ====
section
/-! SUPPORT. The arms of `exec` as equations, what each instruction can do, and runs of instructions. -/

namespace Sys2Proof.Machine

variable {s t : State}

theorem answer_eq_withResponse (st : Status) (s : State) :
    answer st s = withResponse s st (List.replicate s.cfg.smax 0) := rfl

theorem respond_eq_withResponse (st : Status) (r : List Byte) (s : State) :
    respond st r s = withResponse s st r := rfl

theorem exec_init (node : Byte) : exec (.init node) s = .next (answer .ok { s with selfNodeId := some node }) := rfl

theorem exec_set_busy {ch : Byte} {d : List Byte} (h : s.txBusy = true) :
    exec (.set ch d) s = .next (answer .busy s) := by simp [exec, execSet, h]

theorem exec_set_unknown {ch : Byte} {d : List Byte} (h : s.txBusy = false) (hc : s.cfg.C ≤ ch.toNat) :
    exec (.set ch d) s = .next (answer .invalidChannel s) := by simp [exec, execSet, h, hc]

theorem exec_set_ok {ch : Byte} {d : List Byte} (h : s.txBusy = false) (hc : ch.toNat < s.cfg.C) :
    exec (.set ch d) s = .next (answer .ok (stageChannel ch.toNat d s)) := by
  simp [exec, execSet, h, Nat.not_le.mpr hc]

theorem exec_send_busy (h : s.txBusy = true) : exec .send s = .next (answer .busy s) := by simp [exec, execSend, h]

theorem exec_send_unset (h : s.txBusy = false) (hn : s.selfNodeId = none) :
    exec .send s = .fault .sendBeforeInit := by simp [exec, execSend, h, hn]

theorem exec_send_ok {id : Byte} (h : s.txBusy = false) (hn : s.selfNodeId = some id) :
    exec .send s = .next (answer .ok (startFrame id s)) := by simp [exec, execSend, h, hn]

theorem exec_rx (data : Byte) : exec (.rx data) s = .next (rxStep data s) := rfl

theorem exec_tx : exec .tx s = .next (txStep s) := rfl

/-- Everything a command can do: answer only, or one of INIT, SET and SEND accepted. -/
inductive CommandEffect (i : Instr) (s : State) : State → Prop where
  | answered (st : Status) (r : List Byte) (hl : r.length = s.cfg.smax)
      (hr : st ≠ .ok → r = zeros s.cfg.smax) : CommandEffect i s (respond st r s)
  | bound (n : Byte) (hi : i = .init n) : CommandEffect i s (answer .ok { s with selfNodeId := some n })
  | staged (ch : Byte) (d : List Byte) (hi : i = .set ch d) (hb : s.txBusy = false) (hc : ch.toNat < s.cfg.C) :
      CommandEffect i s (answer .ok (stageChannel ch.toNat d s))
  | started (id : Byte) (hi : i = .send) (hb : s.txBusy = false) (hn : s.selfNodeId = some id) :
      CommandEffect i s (answer .ok (startFrame id s))

@[simp] theorem getBytes_length {c : Config} {ch : Nat} {m : Memory} : (getBytes c ch m).length = c.smax := by
  simp [getBytes]

theorem answered_zeros {i : Instr} (st : Status) : CommandEffect i s (answer st s) :=
  .answered st _ (by simp) (fun _ => rfl)

theorem command_effect {i : Instr} (hc : isCommand i = true) (h : exec i s = .next t) : CommandEffect i s t := by
  cases i with
  | init node => rw [exec_init] at h; cases h; exact .bound node rfl
  | set ch d =>
    cases hb : s.txBusy with
    | true => rw [exec_set_busy hb] at h; cases h; exact answered_zeros _
    | false =>
      by_cases hch : ch.toNat < s.cfg.C
      · rw [exec_set_ok hb hch] at h; cases h; exact .staged ch d rfl hb hch
      · rw [exec_set_unknown hb (Nat.le_of_not_lt hch)] at h; cases h; exact answered_zeros _
  | send =>
    cases hb : s.txBusy with
    | true => rw [exec_send_busy hb] at h; cases h; exact answered_zeros _
    | false =>
      cases hn : s.selfNodeId with
      | none => rw [exec_send_unset hb hn] at h; cases h
      | some id => rw [exec_send_ok hb hn] at h; cases h; exact .started id rfl hb hn
  | get ch node =>
    simp only [exec, execGet] at h
    split at h
    · cases h; exact answered_zeros _
    · split at h
      · cases h; exact answered_zeros _
      · split at h
        · cases h; exact answered_zeros _
        · cases h; exact .answered _ _ (by simp) (by simp)
  | illegalOp xx => cases h; exact answered_zeros _
  | illegalRsv op rsv => cases h; exact answered_zeros _
  | rx data => cases hc
  | tx => cases hc
  | reset => cases hc
  | wireStart => cases hc
  | wireNodeid n => cases hc
  | wireMask m => cases hc
  | wireData d => cases hc
  | wireEsc => cases hc

/-- What the source offers is RX steps of the bytes that encode it (R83, R130). -/
theorem exec_receive {i : Instr} (hr : isReceive i = true) (smax : Nat) (s : State) :
    exec i s = .next (rxSteps (encode smax i).bytes s) := by
  cases i with
  | init node => cases hr
  | set ch d => cases hr
  | send => cases hr
  | get ch node => cases hr
  | illegalOp xx => cases hr
  | illegalRsv op rsv => cases hr
  | rx data => rfl
  | tx => cases hr
  | reset => cases hr
  | wireStart => rfl
  | wireNodeid n => rfl
  | wireMask m => rfl
  | wireData d => rfl
  | wireEsc => rfl

/-- The four kinds of instruction (R58). -/
theorem instr_kinds (i : Instr) : isCommand i = true ∨ isReceive i = true ∨ i = .tx ∨ i = .reset := by
  cases i <;> simp [isCommand, isReceive]

@[simp] theorem execAll_nil (s : State) : execAll [] s = .next s := rfl

theorem execAll_cons {i : Instr} {is : List Instr} (h : exec i s = .next t) :
    execAll (i :: is) s = execAll is t := by simp [execAll, h]

theorem execAll_cons_next {i : Instr} {is : List Instr} (h : execAll (i :: is) s = .next t) :
    ∃ u, exec i s = .next u ∧ execAll is u = .next t := by
  cases he : exec i s with
  | next u => exact ⟨u, rfl, by simpa [execAll, he] using h⟩
  | fault r => simp [execAll, he] at h
  | refused r => simp [execAll, he] at h

theorem execAll_append {as bs : List Instr} (h : execAll as s = .next t) :
    execAll (as ++ bs) s = execAll bs t := by
  induction as generalizing s with
  | nil => cases h; rfl
  | cons i as ih =>
    obtain ⟨u, h1, h2⟩ := execAll_cons_next h
    rw [List.cons_append, execAll_cons h1]; exact ih h2

theorem execAll_rx (bs : List Byte) (s : State) : execAll (bs.map .rx) s = .next (rxSteps bs s) := by
  induction bs generalizing s with
  | nil => rfl
  | cons b bs ih => rw [List.map_cons, execAll_cons (exec_rx b), ih, rxSteps_cons]

end Sys2Proof.Machine
end

