-- ==== Sys2Proof/Laws/Invariants.lean ====
section
/-! SUPPORT. Every operation keeps the invariants of Safety.lean, and the state after reset has them. -/

namespace Sys2Proof.Machine

variable {s : State}

theorem toNat_lt_of_bits {c : Config} {m : Byte} (h : ∀ i, m.getLsbD i = true → i < c.C) : m.toNat < 2 ^ c.C :=
  Nat.lt_pow_two_of_testBit _ fun i hi => by
    by_contra hb
    exact absurd (h i (by simpa [BitVec.testBit_toNat] using hb)) (by omega)

theorem bit_lt_channels {c : Config} {m : Byte} {i : Nat} (h : m.toNat < 2 ^ c.C) (hb : m.getLsbD i = true) :
    i < c.C := by
  by_contra hge
  have : m.getLsbD i = false :=
    Nat.testBit_lt_two_pow (Nat.lt_of_lt_of_le h (Nat.pow_le_pow_right (by decide) (by omega)))
  simp [this] at hb

/-- The invariants say nothing of the events to come, the node identity and the histories. -/
theorem Inv.unobserved (h : Inv s) {p : List Event} {n : Option Byte} {o o' : List (Byte × Bool)} {i i' : List Byte} :
    Inv { s with pending := p, selfNodeId := n, txOut := o, rxIn := i, txBeforeReset := o', rxBeforeReset := i' } :=
  ⟨⟨h.sizes.1, h.sizes.2, h.sizes.3, h.sizes.4⟩, ⟨h.masks.1, h.masks.2⟩,
    ⟨h.decoder.1, h.decoder.2, h.decoder.3, h.decoder.4, h.decoder.5⟩, ⟨h.encoder.1, h.encoder.2, h.encoder.3, h.encoder.4⟩,
    h.responses⟩

theorem respond_keeps_inv {st : Status} {r : List Byte} (h : Inv s) (hl : r.length = s.cfg.smax)
    (hr : st ≠ .ok → r = zeros s.cfg.smax) : Inv (respond st r s) :=
  ⟨⟨h.sizes.1, h.sizes.2, h.sizes.3, h.sizes.4⟩, ⟨h.masks.1, h.masks.2⟩,
    ⟨h.decoder.1, h.decoder.2, h.decoder.3, h.decoder.4, h.decoder.5⟩, ⟨h.encoder.1, h.encoder.2, h.encoder.3, h.encoder.4⟩,
    fun x hx => by
      rcases List.mem_append.mp hx with hx | hx
      · exact h.responses x hx
      · rw [List.mem_singleton] at hx; subst hx; exact ⟨hl, hr⟩⟩

theorem answer_keeps_inv {st : Status} (h : Inv s) : Inv (answer st s) :=
  respond_keeps_inv h (by simp) fun _ => rfl

theorem payload_length (h : Inv s) : s.txPayload.length = s.cfg.T := by simpa using h.sizes.txPayload

theorem stageChannel_keeps_inv {ch : Nat} {d : List Byte} (h : Inv s) (hb : s.txBusy = false) (hc : ch < s.cfg.C) :
    Inv (stageChannel ch d s) := by
  have hc8 : ch < 8 := Nat.lt_of_lt_of_le hc channels_between.2
  refine ⟨⟨scatter_keeps_wf h.sizes.1, h.sizes.2, h.sizes.3, h.sizes.4⟩, ⟨?_, h.masks.2⟩,
    ⟨h.decoder.1, h.decoder.2, h.decoder.3, h.decoder.4, h.decoder.5⟩,
    ⟨h.encoder.1, h.encoder.2, fun hb' => by simp [hb] at hb', ?_⟩, h.responses⟩
  · rw [stageChannel_txDirty, stageChannel_cfg]
    refine toNat_lt_of_bits fun i hi => ?_
    rw [getLsbD_setBit hc8, Bool.or_eq_true, beq_iff_eq] at hi
    rcases hi with hi | rfl
    · exact bit_lt_channels h.masks.1 hi
    · exact hc
  · intro i hi hd p hp
    rw [stageChannel_cfg] at hi hp
    rw [stageChannel_txDirty, getLsbD_setBit hc8, Bool.or_eq_false_iff] at hd
    have hne : i ≠ ch := by simpa using hd.2
    rw [stageChannel_read_other (channelPositions_apart hi hc hne hp)]
    exact h.encoder.clean i hi hd.1 p hp

theorem frame_length_ge {c : Config} {id mask : Byte} {m : Memory} : 3 ≤ (frame c id mask m).length := by
  rw [frame_length]; omega

theorem startFrame_keeps_inv {id : Byte} (h : Inv s) : Inv (startFrame id s) := by
  have h3 := @frame_length_ge s.cfg id s.txDirty s.txPayload
  refine ⟨⟨h.sizes.1, h.sizes.2, h.sizes.3, h.sizes.4⟩, ⟨h.masks.1, h.masks.2⟩,
    ⟨h.decoder.1, h.decoder.2, h.decoder.3, h.decoder.4, h.decoder.5⟩,
    ⟨?_, fun hb => by simp at hb, fun _ => ⟨h3, ?_, id, rfl⟩, h.encoder.4⟩, h.responses⟩
  · simp [frame]
  · rw [startFrame_txIdx, startFrame_txFrame]; omega

theorem handByte_keeps_inv (h : Inv s) (hb : s.txBusy = true) (hl : s.txIdx + 1 ≠ s.txFrame.length) :
    Inv (handByte s) := by
  obtain ⟨h3, hi, hf⟩ := h.encoder.busy hb
  exact ⟨⟨h.sizes.1, h.sizes.2, h.sizes.3, h.sizes.4⟩, ⟨h.masks.1, h.masks.2⟩,
    ⟨h.decoder.1, h.decoder.2, h.decoder.3, h.decoder.4, h.decoder.5⟩,
    ⟨h.encoder.1, fun hb' => by simp [hb] at hb',
      fun _ => ⟨h3, by rw [handByte_txIdx, handByte_txFrame]; omega, hf⟩, h.encoder.4⟩, h.responses⟩

/-- After completion every byte of the payload is zero (R38, R108; 90_conflicts.md C1). -/
theorem completeSend_payload (h : Inv s) : (completeSend s).txPayload = zeros s.cfg.T := by
  refine array_ext (by simp [payload_length h]) fun p hp => ?_
  rw [read_zeros]
  have hT : p < s.cfg.T := by simpa [payload_length h] using hp
  by_cases hm : p ∈ positions s.cfg s.txDirty
  · exact completeSend_read_sent (payload_length h) hm
  · rw [completeSend_read_other hm]
    obtain ⟨i, hi, hpi⟩ := channel_of_position hT
    refine h.encoder.clean i hi ?_ p hpi
    by_contra hd
    exact hm (mem_positions.mpr ⟨i, hi, by simpa using hd, hpi⟩)

theorem completeSend_keeps_inv (h : Inv s) : Inv (completeSend s) :=
  ⟨⟨scatter_keeps_wf h.sizes.1, h.sizes.2, h.sizes.3, h.sizes.4⟩, ⟨by simp, h.masks.2⟩,
    ⟨h.decoder.1, h.decoder.2, h.decoder.3, h.decoder.4, h.decoder.5⟩,
    ⟨by simp, by simp, by simp, fun i _ _ p _ => by rw [completeSend_payload h, read_zeros]⟩, h.responses⟩

theorem txStep_keeps_inv (h : Inv s) : Inv (txStep s) := by
  rcases txStep_cases s with ⟨-, e⟩ | ⟨hb, hl, e⟩ | ⟨-, -, e⟩ <;> rw [e]
  · exact h
  · exact handByte_keeps_inv h hb hl
  · have hp : completeSend (handByte s) =
        { completeSend s with txOut := (handByte s).txOut } := rfl
    rw [hp]; exact (completeSend_keeps_inv h).unobserved

/-- The count of a frame in progress is below the payload's total size (R36). -/
theorem Inv.count_lt (h : Inv s) (hst : s.rxState = .getData ∨ s.rxState = .gotSymbolPending) :
    s.rxCount < s.cfg.T := Nat.lt_of_lt_of_le (h.decoder.mask hst).2.2.2 h.decoder.expected.2

/-- So it goes up by one without overflow (R138). -/
theorem Inv.nextCount_eq (h : Inv s) (hst : s.rxState = .getData ∨ s.rxState = .gotSymbolPending) :
    nextCount s = s.rxCount + 1 := nextCount_of_lt (h.count_lt hst)

theorem append_keeps_inv {d : Byte} (h : Inv s) (hst : s.rxState = .getData ∨ s.rxState = .gotSymbolPending) :
    Inv (append d s) := by
  obtain ⟨hm1, hm2, hexp, hcnt⟩ := h.decoder.mask hst
  have hT : s.rxExpected ≤ s.cfg.T := h.decoder.expected.2
  have hn := h.decoder.node (Or.inr hst)
  have hnext : nextCount s = s.rxCount + 1 := h.nextCount_eq hst
  rcases append_cases d s with ⟨hl, e⟩ | ⟨hl, e⟩ <;> rw [e]
  · refine ⟨⟨h.sizes.1, by simpa using h.sizes.2, by simpa using h.sizes.3, ?_⟩, ⟨h.masks.1, ?_⟩,
      ⟨by simp, by simp, ?_, h.decoder.4, toCounter_lt _, h.decoder.5.2⟩, ⟨h.encoder.1, h.encoder.2, h.encoder.3, h.encoder.4⟩, h.responses⟩
    · intro e he
      obtain ⟨n, hn', rfl⟩ := List.getElem_of_mem he
      simp only [enterState_store, enterState_cfg, commit_store, List.getElem_modify, commit_cfg, storeByte_cfg]
      split
      · exact scatter_keeps_wf (h.sizes.4 _ (List.getElem_mem _))
      · exact h.sizes.4 _ (List.getElem_mem _)
    · intro e he
      obtain ⟨n, hn', rfl⟩ := List.getElem_of_mem he
      simp only [enterState_store, enterState_cfg, commit_store, List.getElem_modify, commit_cfg, storeByte_cfg]
      split
      · show s.rxMask.toNat < 2 ^ s.cfg.C
        have : 0 < 2 ^ s.cfg.C := Nat.two_pow_pos _
        omega
      · exact h.masks.2 _ (List.getElem_mem _)
    · show nextCount s ≤ s.cfg.T
      omega
  · refine ⟨⟨h.sizes.1, by simpa using h.sizes.2, h.sizes.3, h.sizes.4⟩, ⟨h.masks.1, h.masks.2⟩,
      ⟨fun _ => hn, fun _ => ⟨hm1, hm2, hexp, ?_⟩, ?_, h.decoder.4, toCounter_lt _, h.decoder.5.2⟩,
      ⟨h.encoder.1, h.encoder.2, h.encoder.3, h.encoder.4⟩, h.responses⟩
    · show nextCount s < s.rxExpected
      omega
    · show nextCount s ≤ s.cfg.T
      omega

/-- What moves no more than the control state, the node id, the mask and the counters need only keep the decoder's facts. -/
theorem Inv.withDecoder {data : Byte} {st : RxState} {n m : Byte} {c e : Nat} (h : Inv s)
    (hd : DecoderOk { s with rxState := st, rxNode := n, rxMask := m, rxCount := c, rxExpected := e }) :
    Inv { consumeByte data s with rxState := st, rxNode := n, rxMask := m, rxCount := c, rxExpected := e } :=
  ⟨⟨h.sizes.1, h.sizes.2, h.sizes.3, h.sizes.4⟩, ⟨h.masks.1, h.masks.2⟩, ⟨hd.1, hd.2, hd.3, hd.4, hd.5⟩,
    ⟨h.encoder.1, h.encoder.2, h.encoder.3, h.encoder.4⟩, h.responses⟩

theorem rxStep_keeps_inv {data : Byte} (h : Inv s) : Inv (rxStep data s) := by
  have he := rxStep_effect data s
  generalize rxStep data s = t at he
  cases he with
  | moved st hst =>
    refine h.withDecoder (st := st) ⟨fun hor => ?_, fun hor => ?_, h.decoder.3, h.decoder.4, h.decoder.5⟩
    · rcases hst with rfl | rfl | ⟨rfl, hg⟩
      · simp at hor
      · simp at hor
      · exact h.decoder.node (by simp [hg])
    · rcases hst with rfl | rfl | ⟨rfl, hg⟩
      · simp at hor
      · simp at hor
      · exact h.decoder.mask (by simp [hg])
  | nodeCaptured hst hm hn =>
    exact h.withDecoder (st := .waitBitmask) (n := data) ⟨fun _ => hn, by simp, h.decoder.3, h.decoder.4, h.decoder.5⟩
  | maskCaptured hst hm h0 hc =>
    have hpos := payloadLength_pos h0 hc
    have h1 : 1 ≤ data.toNat := Nat.one_le_iff_ne_zero.mpr fun e => h0 (BitVec.eq_of_toNat_eq (by simpa using e))
    rw [captureMask_eq]
    exact h.withDecoder (st := .getData) (m := data) (c := 0) (e := payloadLength s.cfg data)
      ⟨fun _ => h.decoder.node (hst.imp_right .inr),
        fun _ => ⟨h1, by show data.toNat ≤ 2 ^ s.cfg.C - 1; omega, rfl, hpos⟩,
        Nat.zero_le _, ⟨hpos, payloadLength_le⟩,
        Nat.two_pow_pos _, Nat.lt_of_le_of_lt payloadLength_le total_lt_counter⟩
  | appended hst =>
    have hu : Inv (consumeByte data s) := h.unobserved
    exact append_keeps_inv hu (by rcases hst with ⟨hst, -⟩ | ⟨hst, -⟩ <;> simp [hst])

theorem rxSteps_keeps_inv : ∀ {bs : List Byte} {s : State}, Inv s → Inv (rxSteps bs s)
  | [], _, h => h
  | b :: _, _, h => by rw [rxSteps_cons]; exact rxSteps_keeps_inv (rxStep_keeps_inv h)

theorem command_keeps_inv {i : Instr} {t : State} (h : Inv s) (he : CommandEffect i s t) : Inv t := by
  cases he with
  | answered st r hl hr => exact respond_keeps_inv h hl hr
  | bound n hi => exact answer_keeps_inv h.unobserved
  | staged ch d hi hb hc => exact answer_keeps_inv (stageChannel_keeps_inv h hb hc)
  | started id hi hb hn => exact answer_keeps_inv (startFrame_keeps_inv h)

/-- Reset leaves a state with every invariant, for every configuration (R190); the responses the host holds stay. -/
theorem resetWith_inv (c : Config) {p : List Event} {o : List (Byte × Bool)} {i : List Byte} {r : List Response}
    (hr : ∀ x ∈ r, x.r.length = c.smax ∧ (x.status ≠ .ok → x.r = zeros c.smax)) :
    Inv { State.resetWith c with txBeforeReset := o, rxBeforeReset := i, responses := r, pending := p } := by
  refine ⟨⟨?_, ?_, ?_, ?_⟩, ⟨?_, ?_⟩, ⟨?_, ?_, ?_, ?_, ?_⟩, ⟨?_, ?_, ?_, ?_⟩, hr⟩
  · simp [State.resetWith]
  · simp [State.resetWith]
  · simp [State.resetWith]
  · intro e he; obtain ⟨-, rfl⟩ := List.mem_replicate.mp he; simp [State.resetWith]
  · simp [State.resetWith]
  · intro e he; obtain ⟨-, rfl⟩ := List.mem_replicate.mp he; simp [State.resetWith]
  · simp [State.resetWith]
  · simp [State.resetWith]
  · exact Nat.zero_le _
  · exact ⟨Nat.le_refl 1, total_pos⟩
  · exact ⟨Nat.two_pow_pos _, Nat.lt_of_le_of_lt total_pos total_lt_counter⟩
  · simp [State.resetWith]
  · simp [State.resetWith]
  · simp [State.resetWith]
  · intro i _ _ p _; exact read_zeros

end Sys2Proof.Machine
end

