-- ==== Sys2Proof/Laws/PerInstr.lean ====
section
/-! SUPPORT. Facts made once per instruction. EncodedWidth: the encoding of a well-formed instruction fills its port
exactly, `W = 24 + 8*SMAX` bits for a command word (spec/30_encoding.md R71), one byte for a stream byte or a wire symbol
of one byte, two for the escape pair, and none for `tx_ready` and `rst`. -/

namespace Sys2Proof.Laws.EncodedWidth

/-- How many bytes the encoding of an instruction has. -/
def width (smax : Nat) (i : Instr) : Nat :=
  match i with
  | .init _ => 3 + smax
  | .set _ _ => 3 + smax
  | .send => 3 + smax
  | .get _ _ => 3 + smax
  | .illegalOp _ => 3 + smax
  | .illegalRsv _ _ => 3 + smax
  | .rx _ => 1
  | .tx => 0
  | .reset => 0
  | .wireStart => 1
  | .wireNodeid _ => 1
  | .wireMask _ => 1
  | .wireData _ => 1
  | .wireEsc => 2

/-- The encoding fills its port. -/
def Statement (i : Instr) : Prop :=
  ∀ smax, i.WellFormed smax → (encode smax i).bytes.length = width smax i

theorem commandEvent_length {smax : Nat} {low ch node : Byte} {d : List Byte} (h : d.length = smax) :
    (commandEvent low ch node d).bytes.length = 3 + smax := by simp [commandEvent, h]; omega

theorem init (node : Byte) : Statement (.init node) := fun _ _ => commandEvent_length (by simp)

theorem set (ch : Byte) (d : List Byte) : Statement (.set ch d) := fun smax h =>
  commandEvent_length (by
    by_contra hn
    simp [Instr.WellFormed, Instr.illFormed, hn] at h)

theorem send : Statement .send := fun _ _ => commandEvent_length (by simp)

theorem get (ch node : Byte) : Statement (.get ch node) := fun _ _ => commandEvent_length (by simp)

theorem illegalOp (xx : BitVec 2) : Statement (.illegalOp xx) := fun _ _ => commandEvent_length (by simp)

theorem illegalRsv (op : BitVec 3) (rsv : BitVec 5) : Statement (.illegalRsv op rsv) :=
  fun _ _ => commandEvent_length (by simp)

theorem rx (data : Byte) : Statement (.rx data) := fun _ _ => rfl

theorem tx : Statement .tx := fun _ _ => rfl

theorem reset : Statement .reset := fun _ _ => rfl

theorem wireStart : Statement .wireStart := fun _ _ => rfl

theorem wireNodeid (n : Byte) : Statement (.wireNodeid n) := fun _ _ => rfl

theorem wireMask (m : Byte) : Statement (.wireMask m) := fun _ _ => rfl

theorem wireData (d : Byte) : Statement (.wireData d) := fun _ _ => rfl

theorem wireEsc : Statement .wireEsc := fun _ _ => rfl

end Sys2Proof.Laws.EncodedWidth
end

