-- ==== Sys2Proof/Laws/Runs.lean ====
section
/-! SUPPORT. Runs of one agent: the sink taking a frame to its end (spec/40_encoder.md R110), and the decoder taking a
frame's bytes (spec/42_store.md R166). -/

namespace Sys2Proof.Machine

variable {s : State}

/-- A sink that takes every byte gets what is left of the frame, its last byte alone marked, and the send completes. -/
theorem drain : ∀ {rest : List Byte} {s : State}, s.txBusy = true → s.txFrame.drop s.txIdx = rest → rest ≠ [] →
    execAll (List.replicate rest.length .tx) s =
      .next (completeSend { s with txOut := s.txOut ++ markLast rest })
  | [], _, _, _, h => absurd rfl h
  | [b], s, hb, hr, _ => by
    have hl : s.txIdx + 1 = s.txFrame.length := by
      have := congrArg List.length hr; rw [List.length_drop, List.length_singleton] at this; omega
    have hget : s.txFrame[s.txIdx]? = some b := by
      have := congrArg (·[0]?) hr; simpa using this
    rw [List.length_singleton, List.replicate_one, execAll_cons exec_tx, execAll_nil, txStep_lastByte hb hl,
      handByte_eq hget, hl, beq_self_eq_true]
    rfl
  | b :: c :: rest, s, hb, hr, _ => by
    have hlen : s.txFrame.length - s.txIdx = rest.length + 2 := by
      have := congrArg List.length hr; rwa [List.length_drop] at this
    have hget : s.txFrame[s.txIdx]? = some b := by
      have := congrArg (·[0]?) hr; simpa using this
    have hne : s.txIdx + 1 ≠ s.txFrame.length := by omega
    have hnext : s.txFrame.drop (s.txIdx + 1) = c :: rest := by
      rw [← List.drop_drop, hr]; rfl
    rw [List.length_cons, List.replicate_succ, execAll_cons exec_tx, txStep_midFrame hb hne, handByte_eq hget,
      beq_eq_false_iff_ne.mpr hne]
    refine (drain (s := { s with txOut := s.txOut ++ [(b, false)], txIdx := s.txIdx + 1 }) hb hnext (by simp)).trans ?_
    simp [completeSend, markLast]

theorem collected_collected (w w' as bs : List Byte) (s : State) :
    collected w' bs (collected w as s) = collected (w ++ w') (as ++ bs) s := by
  have key : ∀ (as : List Byte) (k : Nat) (m : Memory),
      scatter (List.range' (k + as.length) bs.length) bs (scatter (List.range' k as.length) as m) =
        scatter (List.range' k (as.length + bs.length)) (as ++ bs) m := by
    intro as
    induction as with
    | nil => intro k m; simp
    | cons a as ih =>
      intro k m
      have := ih (k + 1) (Memory.write m k a)
      simp only [List.length_cons, Nat.add_right_comm _ 1, List.range'_succ, List.cons_append, scatter] at this ⊢
      rw [← this]; rfl
  simp [collected, key, Nat.add_assoc]

/-- Bytes un-stuffed one after another, while more are expected than are given. -/
theorem rxSteps_payload_more : ∀ {bs : List Byte} {s : State}, s.rxState = .getData → s.rxExpected ≤ s.cfg.T →
    s.rxCount + bs.length < s.rxExpected → rxSteps (stuffAll bs) s = collected (stuffAll bs) bs s
  | [], s, _, _, _ => by rw [show stuffAll [] = [] from rfl, collected_nil, rxSteps_nil]
  | b :: bs, s, h, hT, hlt => by
    rw [List.length_cons] at hlt
    rw [show stuffAll (b :: bs) = stuff b ++ stuffAll bs from rfl, rxSteps_append, rxSteps_stuff h (by omega),
      if_neg (by omega), rxSteps_payload_more (s := collected (stuff b) [b] s) h hT
        (by show s.rxCount + 1 + bs.length < s.rxExpected; omega),
      collected_collected]
    rfl

/-- A whole payload un-stuffed: the frame commits on its last byte. -/
theorem rxSteps_payload_all {bs : List Byte} (h : s.rxState = .getData) (hT : s.rxExpected ≤ s.cfg.T) (h0 : bs ≠ [])
    (hlen : s.rxCount + bs.length = s.rxExpected) :
    rxSteps (stuffAll bs) s = enterState .idle (commit (collected (stuffAll bs) bs s)) := by
  obtain ⟨as, b, rfl⟩ : ∃ as b, bs = as ++ [b] := ⟨_, _, (List.dropLast_append_getLast h0).symm⟩
  have hs : stuffAll (as ++ [b]) = stuffAll as ++ stuff b := by simp [stuffAll]
  simp only [List.length_append, List.length_singleton] at hlen
  rw [hs, rxSteps_append, rxSteps_payload_more h hT (by omega),
    rxSteps_stuff (s := collected (stuffAll as) as s) h (by show s.rxCount + as.length < s.cfg.T; omega),
    if_pos (by show s.rxCount + as.length + 1 = s.rxExpected; omega), collected_collected]

/-- The header of a frame that a receiver accepts (R132 to R134). -/
theorem rxSteps_header {id mask : Byte} (h : s.rxState = .idle) (hn : id.toNat < s.cfg.N) (h0 : mask ≠ 0)
    (hm : mask ≠ marker) (hc : mask.toNat < 2 ^ s.cfg.C) :
    rxSteps [marker, id, mask] s = { s with
      rxIn := s.rxIn ++ [marker, id, mask], rxNode := id, rxMask := mask, rxExpected := payloadLength s.cfg mask
      rxCount := 0, rxState := .getData } := by
  have hid : id ≠ marker := by
    rintro rfl
    have h255 : s.cfg.N ≤ 255 := s.cfg.ok.2.2.2.2.2.2
    have : marker.toNat = 255 := rfl
    omega
  rw [rxSteps_cons, rxStep_idle h, rxIdle, if_pos rfl, rxSteps_cons, rxStep_waitNodeId rfl, rxWaitNodeId, if_neg hid,
    if_neg (by simpa using hn), rxSteps_cons, rxStep_waitBitmask rfl, rxWaitBitmask, if_neg hm,
    if_neg (by simpa using hc), if_neg h0]
  simp [enterState, captureMask, captureNode, consumeByte]

end Sys2Proof.Machine
end

