-- ==== Sys2Proof/Tests/Slice0.lean ====
section
/-! SUPPORT. The model's own tests: ill-formed instructions refused, words written out from the spec's encodings decoded,
single steps on small states with results from spec/95_test_vectors.md or worked by hand from the rule named, and for every
statement with premises a state that meets them together. -/

namespace Sys2Proof.Tests

open Sys2Proof Sys2Proof.Machine

/-! WellFormed: one ill-formed term per check -/

theorem test_illformed_set_width : Instr.illFormed 2 (.set 0 [1]) = some .dataFieldWidth := by decide
theorem test_illformed_rsv_zero : Instr.illFormed 2 (.illegalRsv 4 0) = some .reservedFieldIsZero := by decide
theorem test_illformed_lone_marker : Instr.illFormed 2 (.wireData 0xFF) = some .unescapedMarker := by decide

/-! Decode: words from R71, R84, the opcode table's examples and 95_test_vectors.md, for every constructor -/

/-- opcode table: INIT 5 = 0x0000050000 -/
theorem test_decode_init : decode 2 ⟨.cmd, [0x00, 0x00, 0x05, 0x00, 0x00]⟩ = .ok (.init 5) := by decide
/-- opcode table: SET 0, [0xFF, 0x10] = 0x10FF000001 -/
theorem test_decode_set : decode 2 ⟨.cmd, [0x01, 0x00, 0x00, 0xFF, 0x10]⟩ = .ok (.set 0 [0xFF, 0x10]) := by decide
/-- opcode table: SEND = 0x0000000002 -/
theorem test_decode_send : decode 2 ⟨.cmd, [0x02, 0x00, 0x00, 0x00, 0x00]⟩ = .ok .send := by decide
/-- R84: GET 5, 1 (vector GT4) = 0x0000010503 -/
theorem test_decode_get : decode 2 ⟨.cmd, [0x03, 0x05, 0x01, 0x00, 0x00]⟩ = .ok (.get 5 1) := by decide
/-- vector P3: `.cmd 0x0000000007`, op = 7 -/
theorem test_decode_illegalOp : decode 2 ⟨.cmd, [0b00000111, 0, 0, 0, 0]⟩ = .ok (.illegalOp 0b11) := by decide
/-- vector EN22: `.cmd 0x000000000A`, op = 2, rsv = 1 -/
theorem test_decode_illegalRsv : decode 2 ⟨.cmd, [0b00001010, 0, 0, 0, 0]⟩ = .ok (.illegalRsv 2 1) := by decide
/-- R85 -/
theorem test_decode_rx : decode 2 ⟨.rxStream, [0x42]⟩ = .ok (.rx 0x42) := by decide
/-- R82: no bits come in -/
theorem test_decode_tx : decode 2 ⟨.txStream, []⟩ = .ok .tx := by decide
/-- R70: `rst = 1` -/
theorem test_decode_reset : decode 2 ⟨.rst, []⟩ = .ok .reset := by decide
/-- R77 -/
theorem test_decode_wireStart : decode 2 ⟨.wireByte0, [0b11111111]⟩ = .ok .wireStart := by decide
/-- R78 -/
theorem test_decode_wireNodeid : decode 2 ⟨.wireByte1, [0x80]⟩ = .ok (.wireNodeid 0x80) := by decide
/-- R78 -/
theorem test_decode_wireMask : decode 2 ⟨.wireByte2, [0x05]⟩ = .ok (.wireMask 0x05) := by decide
/-- R80 -/
theorem test_decode_wireData : decode 2 ⟨.wirePayload, [0xFE]⟩ = .ok (.wireData 0xFE) := by decide
/-- R80 -/
theorem test_decode_wireEsc : decode 2 ⟨.wirePayload, [0xFF, 0xFF]⟩ = .ok .wireEsc := by decide

/-- R71: `W` is 40 bits here, so 4 bytes are no command word. -/
theorem test_decode_short_command : decode 2 ⟨.cmd, [0, 0, 0, 0]⟩ = .error .commandWidth := by decide
/-- R80: a lone marker is no payload symbol. -/
theorem test_decode_lone_marker : decode 2 ⟨.wirePayload, [0xFF]⟩ = .error .notPayloadSymbol := by decide
/-- R77 -/
theorem test_decode_bad_start : decode 2 ⟨.wireByte0, [0x7F]⟩ = .error .notStartMarker := by decide
/-- R83: one byte per RX step -/
theorem test_decode_two_bytes : decode 2 ⟨.rxStream, [1, 2]⟩ = .error .byteCount := by decide
/-- the opcode table's rows with all their bits -/
theorem test_decode_table_words : decodeTableWord 8 0x00 = some (.init 0) ∧
    decodeTableWord 16 0x0201 = some (.set 2 [0, 0]) ∧ decodeTableWord 8 0x02 = some .send ∧
    decodeTableWord 24 0x010503 = some (.get 5 1) ∧ decodeTableWord 8 0x04 = some (.illegalOp 0) ∧
    decodeTableWord 8 0xFF = some .wireStart ∧ decodeTableWord 16 0xFFFF = some .wireEsc := by decide

/-! Configuration: the numbers of 00_scope.md section 3, and layouts that R8 refuses -/

theorem test_reference_numbers : Config.reference.T = 6 ∧ Config.reference.smax = 2 ∧ Config.reference.fmax = 15 ∧
    Config.reference.cntw = 3 ∧ Config.reference.wordBits = 40 := by decide
theorem test_overlap_refused : ¬ Layout.Valid ⟨[⟨2, 0⟩, ⟨2, 1⟩], 1⟩ := by decide
theorem test_permuted_tiling_accepted : Layout.Valid ⟨[⟨1, 2⟩, ⟨2, 0⟩], 255⟩ := by decide

/-- `C = 3`, sizes 1, 2, 2 (vectors EN23, GT8) -/
def narrow : Config := { layout := { channels := [⟨1, 0⟩, ⟨2, 1⟩, ⟨2, 3⟩], nodes := 1 }, ok := by decide }

/-! Small states -/

/-- after INIT 0 -/
def bound : State := { State.reset with selfNodeId := some 0 }
/-- after SET 0, [01, 02] -/
def staged : State := { bound with txDirty := 0x01, txPayload := [1, 2, 0, 0, 0, 0] }
/-- after SEND (vector S1) -/
def sending : State := { staged with txBusy := true, txFrame := [0xFF, 0x00, 0x01, 0x01, 0x02] }
/-- the same with the last byte on offer -/
def sendingLast : State := { sending with txIdx := 4 }
/-- `rx_state = WaitNodeId` -/
def waitingNode : State := { State.reset with rxState := .waitNodeId }
/-- node 0 captured -/
def waitingMask : State := { State.reset with rxState := .waitBitmask }
/-- mask 01 captured, two bytes expected -/
def collecting : State := { State.reset with rxState := .getData, rxMask := 0x01, rxExpected := 2 }
/-- one of two bytes stored -/
def collectingLast : State := { collecting with rxBuf := [0x11, 0, 0, 0, 0, 0], rxCount := 1 }
/-- a lone marker seen -/
def lookahead : State := { collecting with rxState := .gotSymbolPending }
/-- a lone marker seen, one byte missing -/
def lookaheadLast : State := { collectingLast with rxState := .gotSymbolPending }
/-- node 0 holds channel 0 = [01, 02] (vector DV1) -/
def stored : State := { State.reset with store := [⟨0x01, [1, 2, 0, 0, 0, 0]⟩] }

/-- One field of the state an instruction leaves. -/
def after {α : Type} (i : Instr) (s : State) (f : State → α) : Option α :=
  match exec i s with
  | .next t => some (f t)
  | .fault _ => none
  | .refused _ => none

/-- One field of the state a step leaves. -/
def afterStep {α : Type} (s : State) (f : State → α) : Option α :=
  match step s with
  | .next t => some (f t)
  | .fault _ => none
  | .refused _ => none

/-! One step per instruction -/

/-- R100, vector EN13: INIT while busy binds and leaves the frame -/
theorem test_init_while_busy : after (.init 5) sending (fun t => (t.selfNodeId, t.txFrame, t.responses)) =
    some (some 5, [0xFF, 0x00, 0x01, 0x01, 0x02], [⟨.ok, [0, 0]⟩]) := by decide
/-- vector EN1's SET -/
theorem test_set_stages : after (.set 0 [0x01, 0x02]) bound (fun t => (t.txDirty, t.txPayload, t.responses)) =
    some (0x01, [1, 2, 0, 0, 0, 0], [⟨.ok, [0, 0]⟩]) := by decide
/-- vector EN23: only d[0] is written where size[0] = 1 -/
theorem test_set_ignores_extra_byte : after (.set 0 [0x01, 0x09]) (State.resetWith narrow) (·.txPayload) =
    some [1, 0, 0, 0, 0] := by decide
/-- vector EN16: Busy before InvalidChannel -/
theorem test_set_busy_first : after (.set 3 [1, 2]) sending (·.responses) = some [⟨.busy, [0, 0]⟩] := by decide
/-- vector S1 -/
theorem test_send_frame : after .send staged (fun t => (t.txFrame, t.txIdx, t.txBusy, t.txDirty)) =
    some ([0xFF, 0x00, 0x01, 0x01, 0x02], 0, true, 0x01) := by decide
/-- vector S2: a payload 0xFF is doubled -/
theorem test_send_stuffs : after .send { bound with txDirty := 0x01, txPayload := [0xFF, 0x10, 0, 0, 0, 0] }
    (·.txFrame) = some [0xFF, 0x00, 0x01, 0xFF, 0xFF, 0x10] := by decide
/-- vector EN18's first TX -/
theorem test_tx_first : after .tx sending (fun t => (t.txOut, t.txIdx, t.txBusy)) =
    some ([(0xFF, false)], 1, true) := by decide
/-- vector EN19's last TX -/
theorem test_tx_last : after .tx sendingLast (fun t => (t.txOut, t.txBusy, t.txDirty, t.txPayload, t.txIdx)) =
    some ([(0x02, true)], false, 0x00, [0, 0, 0, 0, 0, 0], 0) := by decide
/-- vector GT5 -/
theorem test_get_ok : after (.get 0 0) stored (·.responses) = some [⟨.ok, [1, 2]⟩] := by decide
/-- vector GT4: node before channel -/
theorem test_get_node_first : after (.get 5 1) State.reset (·.responses) = some [⟨.invalidNode, [0, 0]⟩] := by decide
/-- vector EN21 -/
theorem test_illegalOp : after (.illegalOp 0) staged (fun t => (t.txDirty, t.responses)) =
    some (0x01, [⟨.illegalCommand, [0, 0]⟩]) := by decide
/-- vector EN22: no frame starts -/
theorem test_illegalRsv : after (.illegalRsv 2 1) staged (fun t => (t.txBusy, t.responses)) =
    some (false, [⟨.illegalCommand, [0, 0]⟩]) := by decide
/-- vector DV14, Scenario C: the byte after a lone marker is a new mask for the same node -/
theorem test_rx_demotion : after (.rx 0x02) lookaheadLast (fun t => (t.rxState, t.rxMask, t.rxNode, t.rxCount, t.rxExpected)) =
    some (.getData, 0x02, 0, 0, 2) := by decide
/-- vector DV13: the frame completes on the second byte of an escape pair -/
theorem test_rx_escape_commits : after (.rx 0xFF) { lookaheadLast with rxBuf := [0x10, 0, 0, 0, 0, 0] }
    (fun t => (t.rxState, (storeValid t 0), (storePayload t 0).take 2)) = some (.idle, 0x01, [0x10, 0xFF]) := by decide
/-- R190, R191, vector RS1 -/
theorem test_reset : after .reset { sending with txOut := [(0xFF, false), (0x00, false)], txIdx := 2 }
    (fun t => (txHistory t, t.txOut, t.txBusy, t.txDirty, t.selfNodeId)) =
    some ([(0xFF, false), (0x00, false)], [], false, 0x00, none) := by decide
/-- R77, R135: a start marker inside a payload opens the lookahead -/
theorem test_wireStart : after .wireStart collecting (·.rxState) = some .gotSymbolPending := by decide
/-- vector DV5: node id 1 with N = 1 drops -/
theorem test_wireNodeid_drop : after (.wireNodeid 1) waitingNode (·.rxState) = some .idle := by decide
/-- R134's example: mask 05 -/
theorem test_wireMask : after (.wireMask 0x05) waitingMask (fun t => (t.rxMask, t.rxExpected, t.rxCount, t.rxState)) =
    some (0x05, 4, 0, .getData) := by decide
/-- vector DV9: mask 08 with C = 3 drops -/
theorem test_wireMask_drop : after (.wireMask 0x08) waitingMask (·.rxState) = some .idle := by decide
/-- R136's example -/
theorem test_wireData : after (.wireData 0x10) collecting (fun t => (t.rxBuf.take 1, t.rxCount)) =
    some ([0x10], 1) := by decide
/-- R137's example: one byte 0xFF is stored -/
theorem test_wireEsc : after .wireEsc collecting (fun t => (t.rxBuf.take 2, t.rxCount, t.rxState)) =
    some ([0xFF, 0x00], 1, .getData) := by decide

/-- vector P4: SEND before INIT is the model fault -/
theorem test_send_before_init : exec .send State.reset = .fault .sendBeforeInit := by rfl
/-- a step takes the next event and leaves the rest -/
theorem test_step_takes_event : afterStep { State.reset with pending := [encode 2 (.init 5), encode 2 .tx] }
    (fun t => (t.selfNodeId, t.pending)) = some (some 5, [encode 2 .tx]) := by decide
/-- the host's fetched word runs first -/
theorem test_step_fetch_word : afterStep (State.reset.withFetchWord 24 0x000003) (·.responses) =
    some [⟨.noData, [0, 0]⟩] := by decide
/-- R26: the codes of `rx_state` -/
theorem test_rx_state_codes : [RxState.idle, .waitNodeId, .waitBitmask, .getData, .gotSymbolPending].map rxStateCode =
    [0, 1, 2, 3, 4] := by decide
/-- R73 -/
theorem test_response_word : responseWord ⟨.illegalCommand, [0, 0]⟩ = [0x07, 0, 0] := by decide

/-- R30, D31: with `T = 6` a counter has three bits, and one past 7 is 0 in them (no reachable state gets there) -/
theorem test_counter_width : toCounter Config.reference 7 = 7 ∧ toCounter Config.reference 8 = 0 := by decide

/-! The premises of the statements, met -/

theorem inv_bound : Inv bound :=
  ⟨⟨by decide, by decide, by decide, by decide⟩, ⟨by decide, by decide⟩,
    ⟨by decide, by decide, by decide, by decide, by decide⟩,
    ⟨by decide, by decide, nofun, by decide⟩, nofun⟩
theorem inv_staged : Inv staged :=
  ⟨⟨by decide, by decide, by decide, by decide⟩, ⟨by decide, by decide⟩,
    ⟨by decide, by decide, by decide, by decide, by decide⟩,
    ⟨by decide, by decide, nofun, by decide⟩, nofun⟩
theorem inv_sending : Inv sending :=
  ⟨⟨by decide, by decide, by decide, by decide⟩, ⟨by decide, by decide⟩,
    ⟨by decide, by decide, by decide, by decide, by decide⟩,
    ⟨by decide, by decide, fun _ => ⟨by decide, by decide, 0, by decide⟩, by decide⟩, nofun⟩
theorem inv_sendingLast : Inv sendingLast :=
  ⟨⟨by decide, by decide, by decide, by decide⟩, ⟨by decide, by decide⟩,
    ⟨by decide, by decide, by decide, by decide, by decide⟩,
    ⟨by decide, by decide, fun _ => ⟨by decide, by decide, 0, by decide⟩, by decide⟩, nofun⟩
theorem inv_reset : Inv State.reset :=
  ⟨⟨by decide, by decide, by decide, by decide⟩, ⟨by decide, by decide⟩,
    ⟨by decide, by decide, by decide, by decide, by decide⟩,
    ⟨by decide, by decide, nofun, by decide⟩, nofun⟩
theorem inv_collecting : Inv collecting :=
  ⟨⟨by decide, by decide, by decide, by decide⟩, ⟨by decide, by decide⟩,
    ⟨by decide, by decide, by decide, by decide, by decide⟩,
    ⟨by decide, by decide, nofun, by decide⟩, nofun⟩
theorem inv_lookahead : Inv lookahead :=
  ⟨⟨by decide, by decide, by decide, by decide⟩, ⟨by decide, by decide⟩,
    ⟨by decide, by decide, by decide, by decide, by decide⟩,
    ⟨by decide, by decide, nofun, by decide⟩, nofun⟩
theorem inv_collectingLast : Inv collectingLast :=
  ⟨⟨by decide, by decide, by decide, by decide⟩, ⟨by decide, by decide⟩,
    ⟨by decide, by decide, by decide, by decide, by decide⟩,
    ⟨by decide, by decide, nofun, by decide⟩, nofun⟩
theorem inv_lookaheadLast : Inv lookaheadLast :=
  ⟨⟨by decide, by decide, by decide, by decide⟩, ⟨by decide, by decide⟩,
    ⟨by decide, by decide, by decide, by decide, by decide⟩,
    ⟨by decide, by decide, nofun, by decide⟩, nofun⟩

theorem witness_DecodeOfEncodeIsIdentity :
    (Instr.set 0xFF [0xFF, 0x00]).WellFormed 2 ∧ (Instr.illegalRsv 7 31).WellFormed 2 ∧
    (Instr.wireData 0xFE).WellFormed 2 := by decide
/-- low bytes at the edges: 3 legal, 4 and 8 illegal -/
theorem witness_IllegalCommandWords :
    ((0x03 : Byte).toNat % 8 < 4 ∧ (0x03 : Byte).toNat / 8 = 0) ∧ 4 ≤ (0x04 : Byte).toNat % 8 ∧
    (0x08 : Byte).toNat / 8 ≠ 0 := by decide
theorem witness_SetIgnoresBytesPastTheChannel : ∃ (s : State) (ch : Byte) (d d' : List Byte),
    d.length = s.cfg.smax ∧ d'.length = s.cfg.smax ∧ d ≠ d' ∧
    (ch.toNat < s.cfg.C → ∀ j < s.cfg.size ch.toNat, d[j]? = d'[j]?) :=
  ⟨State.resetWith narrow, 0, [1, 9], [1, 8], by decide⟩
theorem witness_StepRunsNextEvent :
    (∃ (s : State) (e : Event) (rest : List Event) (i : Instr), s.pending = e :: rest ∧ decode s.cfg.smax e = .ok i) ∧
    (∃ (s : State) (nbits w : Nat) (i : Instr), decode s.cfg.smax (tableEvent s.cfg.smax nbits w) = .ok i) :=
  ⟨⟨{ State.reset with pending := [⟨.txStream, []⟩] }, _, _, .tx, rfl, by decide⟩,
    State.reset, 8, 0xFF, .wireStart, by decide⟩
theorem witness_StepWithoutEventsChangesNothing : State.reset.pending = [] := by decide
theorem witness_SetWhileBusyAnswersBusy : sending.txBusy = true := by decide
/-- the first channel index that names none, and the last -/
theorem witness_SetOfUnknownChannelAnswersInvalidChannel :
    bound.txBusy = false ∧ bound.cfg.C ≤ (3 : Byte).toNat ∧ bound.cfg.C ≤ (255 : Byte).toNat := by decide
/-- the last channel -/
theorem witness_SetStagesOneChannel : ∃ (s : State) (ch : Byte) (d : List Byte),
    Inv s ∧ s.txBusy = false ∧ ch.toNat < s.cfg.C ∧ d.length = s.cfg.smax :=
  ⟨bound, 2, [5, 6], inv_bound, by decide⟩
theorem witness_SendWhileBusyAnswersBusy : sendingLast.txBusy = true := by decide
theorem witness_SendBeforeInitFaults : State.reset.txBusy = false ∧ State.reset.selfNodeId = none := by decide
theorem witness_SendBuildsFrame : staged.txBusy = false ∧ staged.selfNodeId = some 0 := by decide
theorem witness_TxHandsOneByte :
    sending.txBusy = true ∧ sending.txFrame[sending.txIdx]? = some 0xFF ∧
    sending.txIdx + 1 < sending.txFrame.length := by decide
theorem witness_TxOfLastByteCompletes : Inv sendingLast ∧ sendingLast.txBusy = true ∧
    sendingLast.txFrame[sendingLast.txIdx]? = some 0x02 ∧ sendingLast.txIdx + 1 = sendingLast.txFrame.length :=
  ⟨inv_sendingLast, by decide⟩
theorem witness_TxWithNothingOnOffer : staged.txBusy = false := by decide
theorem witness_SendAndDrainIsOneSend : Inv staged ∧ staged.txBusy = false ∧ staged.selfNodeId = some 0 :=
  ⟨inv_staged, by decide⟩
theorem witness_EmptySendIsHarmless :
    (Inv bound ∧ bound.txBusy = false ∧ bound.selfNodeId = some 0 ∧ bound.txDirty = 0) ∧
    State.reset.rxState = .idle ∧ (0xFE : Byte) ≠ 0xFF := ⟨⟨inv_bound, by decide⟩, by decide⟩
theorem witness_BusyFreezesTheFrame : sending.txBusy = true ∧ (∃ t, exec .tx sending = .next t) ∧
    (∃ t, exec .tx sendingLast = .next t) := ⟨by decide, ⟨_, rfl⟩, ⟨_, rfl⟩⟩
theorem witness_NonOkCommandWritesNothing : isCommand (.set 3 [1, 2]) = true ∧
    ∃ t, exec (.set 3 [1, 2]) staged = .next t := ⟨by decide, _, rfl⟩
theorem witness_UnreadySinkKeepsTheBlockBusy : sending.txBusy = true ∧
    ∀ i ∈ [Instr.set 0 [1, 2], .send, .rx 0xFF], i ≠ .tx ∧ i ≠ .reset := by decide
theorem witness_OnlyInitBindsTheNodeId :
    (∃ t, exec (.init 5) bound = .next t ∧ t.selfNodeId ≠ bound.selfNodeId) ∧
    (∃ t, exec .reset bound = .next t ∧ t.selfNodeId ≠ bound.selfNodeId) :=
  ⟨⟨_, rfl, by decide⟩, ⟨_, rfl, by decide⟩⟩
theorem witness_OnlySendAndTxMoveBusy :
    (∃ t, exec .send staged = .next t ∧ staged.txBusy = false ∧ t.txBusy = true) ∧
    (∃ t, exec .tx sendingLast = .next t ∧ sendingLast.txBusy = true ∧ t.txBusy = false) :=
  ⟨⟨_, rfl, by decide⟩, ⟨_, rfl, by decide⟩⟩
theorem witness_PortOutputs : sending.txBusy = true ∧ sending.txFrame[sending.txIdx]? = some 0xFF := by decide
/-- the first node id the store does not hold -/
theorem witness_GetOfUnknownNode : State.reset.cfg.N ≤ (1 : Byte).toNat := by decide
/-- the last node and the first channel index that names none -/
theorem witness_GetOfUnknownChannel :
    (0 : Byte).toNat < State.reset.cfg.N ∧ State.reset.cfg.C ≤ (3 : Byte).toNat := by decide
theorem witness_GetWithoutData : (0 : Byte).toNat < stored.cfg.N ∧ (2 : Byte).toNat < stored.cfg.C ∧
    stored.store[(0 : Byte).toNat]? = some ⟨0x01, [1, 2, 0, 0, 0, 0]⟩ ∧
    (0x01 : Byte).getLsbD (2 : Byte).toNat = false := by decide
theorem witness_GetReadsTheChannel : (0 : Byte).toNat < stored.cfg.N ∧ (0 : Byte).toNat < stored.cfg.C ∧
    stored.store[(0 : Byte).toNat]? = some ⟨0x01, [1, 2, 0, 0, 0, 0]⟩ ∧
    (0x01 : Byte).getLsbD (0 : Byte).toNat = true := by decide
/-- both ways a frame completes; both kinds of channel (0 held, 2 left out) -/
theorem witness_CommitReplacesValidity : (Inv collectingLast ∧ completesFrame collectingLast 0x22) ∧
    (Inv lookaheadLast ∧ completesFrame lookaheadLast 0xFF) ∧
    collectingLast.rxMask.getLsbD (0 : Byte).toNat = true ∧ collectingLast.rxMask.getLsbD (2 : Byte).toNat = false :=
  ⟨⟨inv_collectingLast, by unfold completesFrame; decide⟩, ⟨inv_lookaheadLast, by unfold completesFrame; decide⟩,
    by decide⟩
theorem witness_LastByteCommitsTheFrame : (Inv collectingLast ∧ completesFrame collectingLast 0x22) ∧
    (Inv lookaheadLast ∧ completesFrame lookaheadLast 0xFF) :=
  ⟨⟨inv_collectingLast, by unfold completesFrame; decide⟩, inv_lookaheadLast, by unfold completesFrame; decide⟩
theorem witness_RxInIdle : State.reset.rxState = .idle := by decide
/-- N - 1 is captured, N is dropped -/
theorem witness_RxInWaitNodeId : waitingNode.rxState = .waitNodeId ∧ (0 : Byte).toNat < waitingNode.cfg.N ∧
    (0 : Byte) ≠ 0xFF ∧ waitingNode.cfg.N ≤ (1 : Byte).toNat ∧ (1 : Byte) ≠ 0xFF := by decide
/-- 2^C - 1 is captured, 2^C and 0 are dropped -/
theorem witness_RxInWaitBitmask : waitingMask.rxState = .waitBitmask ∧ (7 : Byte).toNat < 2 ^ waitingMask.cfg.C ∧
    (7 : Byte) ≠ 0xFF ∧ (7 : Byte) ≠ 0 ∧ 2 ^ waitingMask.cfg.C ≤ (8 : Byte).toNat ∧ (8 : Byte) ≠ 0xFF := by decide
theorem witness_LoneMarkerDemotesToWaitBitmask : lookahead.rxState = .gotSymbolPending ∧ (2 : Byte) ≠ 0xFF := by decide
theorem witness_MarkerInGetDataOpensLookahead : collecting.rxState = .getData := by decide
theorem witness_PayloadByteIsAppended :
    (Inv collecting ∧ (collecting.rxState = .getData ∧ (0x10 : Byte) ≠ 0xFF) ∧
      collecting.rxCount + 1 ≠ collecting.rxExpected) ∧
    Inv lookahead ∧ lookahead.rxState = .gotSymbolPending ∧ lookahead.rxCount + 1 ≠ lookahead.rxExpected :=
  ⟨⟨inv_collecting, by decide⟩, inv_lookahead, by decide⟩
/-- the third clause, in both states -/
theorem witness_CountersKeepTheirWidth : (Inv collectingLast ∧ collectingLast.rxState = .getData) ∧
    (Inv lookaheadLast ∧ lookaheadLast.rxState = .gotSymbolPending) ∧
    collecting.rxCount < 2 ^ collecting.cfg.cntw ∧ collecting.rxExpected < 2 ^ collecting.cfg.cntw ∧
    ∃ t, exec (.rx 0x10) collecting = .next t :=
  ⟨⟨inv_collectingLast, by decide⟩, ⟨inv_lookaheadLast, by decide⟩, by decide, by decide, _, rfl⟩
theorem witness_OnlyACompletedFrameWritesTheStore :
    ∃ t, exec (.rx 0x22) collectingLast = .next t ∧ t.store ≠ collectingLast.store := ⟨_, rfl, by decide⟩
theorem witness_DecoderWaitsWithoutBytes : (∀ i ∈ [Instr.init 5, .tx], isReceive i = false ∧ i ≠ .reset) ∧
    ∃ t, execAll [.init 5, .tx] collecting = .next t := ⟨by decide, _, rfl⟩
/-- no valid mask (0 and 2^C), a valid one, and bytes without a marker -/
theorem witness_InterruptingFrameIsMisread : collecting.rxState = .getData ∧ (0 : Byte) ≠ 0xFF ∧
    2 ^ collecting.cfg.C ≤ (8 : Byte).toNat ∧ (1 : Byte) ≠ 0 ∧ (1 : Byte).toNat < 2 ^ collecting.cfg.C ∧
    ∀ b ∈ ([0x01, 0x02] : List Byte), b ≠ 0xFF := by decide
theorem witness_MarkerInHeaderRestarts : State.reset.rxState = .idle ∧ (1 : Byte) ≠ 0xFF ∧
    (0 : Byte) ≠ 0xFF ∧ (0 : Byte).toNat < State.reset.cfg.N := by decide
theorem witness_WireSymbolIsItsBytes : isReceive .wireEsc = true ∧ isReceive .wireStart = true ∧
    isReceive (.wireNodeid 0) = true ∧ isReceive (.wireMask 1) = true ∧ isReceive (.wireData 2) = true := by decide
theorem witness_WireHeaderOpensAFrame : State.reset.rxState = .idle ∧ (0 : Byte).toNat < State.reset.cfg.N ∧
    (7 : Byte) ≠ 0xFF ∧ (7 : Byte) ≠ 0 ∧ (7 : Byte).toNat < 2 ^ State.reset.cfg.C := by decide
theorem witness_WirePayloadSymbolStoresOneByte : Inv collecting ∧ collecting.rxState = .getData ∧
    collecting.rxCount + 1 ≠ collecting.rxExpected ∧ (0xFE : Byte) ≠ 0xFF := ⟨inv_collecting, by decide⟩
theorem witness_ReceivedFrameIsStored : Inv State.reset ∧ State.reset.rxState = .idle ∧
    (0 : Byte).toNat < State.reset.cfg.N ∧ (7 : Byte) ≠ 0 ∧ (7 : Byte) ≠ 0xFF ∧
    (7 : Byte).toNat < 2 ^ State.reset.cfg.C := ⟨inv_reset, by decide⟩
/-- the SETs of vector P1, and a receiver fresh from reset -/
theorem witness_RoundTripReturnsWhatWasSet : ∃ (s r : State) (n : Byte) (sets : List (Byte × List Byte)),
    Inv s ∧ Inv r ∧ r.cfg = s.cfg ∧ s.txBusy = false ∧ s.txDirty = 0 ∧ s.selfNodeId = some n ∧
    n.toNat < s.cfg.N ∧ r.rxState = .idle ∧ sets ≠ [] ∧ (sets.map (·.1)).Nodup ∧
    (∀ x ∈ sets, x.1.toNat < s.cfg.C ∧ x.2.length = s.cfg.smax) ∧ sets.length < 8 :=
  ⟨bound, State.reset, 0, [(0, [0xFF, 0x10]), (2, [0x05, 0x06])], inv_bound, inv_reset, by decide⟩
theorem witness_AgentsKeepToTheirState : (∃ t, exec .send staged = .next t ∧ isCommand .send = true) ∧
    (∃ t, exec .wireEsc staged = .next t ∧ isReceive .wireEsc = true) := ⟨⟨_, rfl, rfl⟩, ⟨_, rfl, rfl⟩⟩
theorem witness_IndependentStepsCommute : isCommand .send = true ∧ ∀ ch node, Instr.send ≠ .get ch node :=
  ⟨by decide, nofun⟩
theorem witness_HistoriesOnlyGrow : ∃ t, exec .reset sending = .next t := ⟨_, rfl⟩
theorem witness_StepKeepsInvariant : ∃ s t : State, Inv s ∧ step s = .next t :=
  ⟨{ sending with pending := [⟨.txStream, []⟩] }, _, inv_sending.unobserved (p := [⟨.txStream, []⟩]), rfl⟩
theorem witness_ResetAbandonsReception :
    (0 : Byte).toNat < stored.cfg.N ∧ (2 : Byte).toNat < stored.cfg.C := by decide
/-- a block fresh from reset, and one whose unspecified contents are other than the model's -/
theorem witness_ResetContentsAreUnobservable : ∃ (u v s : State) (is : List Instr), Inv u ∧ Inv v ∧ u.rxState = .idle ∧
    (∀ e ∈ u.store, e.valid = 0) ∧ (∀ e ∈ v.store, e.valid = 0) ∧ u.store ≠ v.store ∧
    v = { u with
      rxNode := v.rxNode, rxMask := v.rxMask, rxBuf := v.rxBuf, rxCount := v.rxCount, rxExpected := v.rxExpected
      store := v.store } ∧ execAll is u = .next s :=
  ⟨State.reset, { State.reset with rxNode := 9, rxBuf := List.replicate 6 0xAA, store := [⟨0, List.replicate 6 0x55⟩] },
    _, [.get 0 0], inv_reset,
    ⟨⟨by decide, by decide, by decide, by decide⟩, ⟨by decide, by decide⟩,
      ⟨by decide, by decide, by decide, by decide, by decide⟩, ⟨by decide, by decide, nofun, by decide⟩, nofun⟩,
    by decide, by decide, by decide, by decide, rfl, rfl⟩

end Sys2Proof.Tests
end

section
/-! Proofs of the family 00_scope: what a receiver in Idle stores of a whole frame (spec/00_scope.md R13, spec/41_decoder.md
R131 to R139). -/

namespace Sys2Proof.Machine

theorem gather_range' {m : Memory} {n : Nat} (h : n ≤ m.length) : gather m (List.range' 0 n) = m.take n := by
  refine List.ext_getElem (by simp [h]) fun k hk _ => ?_
  have hkm : k < m.length := by simp at hk; omega
  simp [gather, Memory.read, hkm]

/-- Bytes appended from the start of the assembly buffer are what commit takes from it (R138, R139). -/
theorem take_scatter_range' {m : Memory} {bs : List Byte} (h : bs.length ≤ m.length) :
    (scatter (List.range' 0 bs.length) bs m).take bs.length = bs := by
  rw [← gather_range' (by simpa using h)]
  refine gather_scatter List.nodup_range' (fun x hx => ?_) (by simp)
  have := List.mem_range'_1.mp hx
  omega

/-- What is gathered from distinct positions of one array and scattered to them in another reads there as in the first. -/
theorem read_scatter_gather {m m' : Memory} {ps : List Nat} {p : Nat} (hn : ps.Nodup) (hl : ∀ x ∈ ps, x < m.length)
    (hp : p ∈ ps) : Memory.read (scatter ps (gather m' ps) m) p = Memory.read m' p :=
  List.map_inj_left.mp (gather_scatter hn hl (by simp)) p hp

/-- The entry that a frame with `mask` and `payload` leaves of the entry `e` (R139). -/
def framedEntry (c : Config) (mask : Byte) (payload : Memory) (e : StoreEntry) : StoreEntry :=
  { valid := mask
    payload := scatter (positions c mask) (gather payload (positions c mask)) e.payload }

/-- A frame's payload bytes reach the store at the positions of its mask (R139). -/
theorem read_framedEntry {c : Config} {mask : Byte} {payload : Memory} {e : StoreEntry} {p : Nat}
    (he : e.payload.length = c.T) (hp : p ∈ positions c mask) :
    Memory.read (framedEntry c mask payload e).payload p = Memory.read payload p :=
  read_scatter_gather positions_nodup (fun _ hx => he ▸ positions_lt hx) hp

/-- A whole frame received from Idle: the header opens it, the payload is collected, the last byte commits it, and the
decoder is in Idle again. -/
theorem rxSteps_wholeFrame {r : State} {id mask : Byte} (payload : Memory) (hbuf : r.rxBuf.length = r.cfg.T)
    (hst : r.rxState = .idle) (hid : id.toNat < r.cfg.N) (h0 : mask ≠ 0) (hm : mask ≠ marker)
    (hc : mask.toNat < 2 ^ r.cfg.C) :
    (rxSteps (frame r.cfg id mask payload) r).rxState = .idle ∧
    (rxSteps (frame r.cfg id mask payload) r).store =
      r.store.modify id.toNat (framedEntry r.cfg mask payload) := by
  have hlen : (gather payload (positions r.cfg mask)).length = payloadLength r.cfg mask := gather_length
  have hpos : 1 ≤ payloadLength r.cfg mask := payloadLength_pos h0 hc
  have hle : payloadLength r.cfg mask ≤ r.cfg.T := payloadLength_le
  have hne : gather payload (positions r.cfg mask) ≠ [] := List.ne_nil_of_length_pos (by omega)
  have htake := take_scatter_range' (m := r.rxBuf) (bs := gather payload (positions r.cfg mask)) (by omega)
  rw [hlen] at htake
  rw [frame, rxSteps_append, rxSteps_header hst hid h0 hm hc,
    rxSteps_payload_all rfl hle hne (by simpa using hlen)]
  refine ⟨rfl, ?_⟩
  simp only [enterState, commit, collected, hlen, htake]
  rfl

end Sys2Proof.Machine

open Sys2Proof Sys2Proof.Machine

/-- Settles O49: the decoder's run over the frame modifies one entry of the store, and that entry's payload is gathered
from the frame's at the positions of the mask. -/
theorem receivedFrameIsStored : Obligations.ReceivedFrameIsStored := by
  unfold Obligations.ReceivedFrameIsStored
  intro r id mask payload hinv hst hid h0 hm hc
  obtain ⟨hidle, hstore⟩ := rxSteps_wholeFrame payload (by simpa using hinv.sizes.rxBuf) hst hid h0 hm hc
  have hin : id.toNat < r.store.length := hinv.sizes.store ▸ hid
  have hold : (r.store[id.toNat]).payload.length = r.cfg.T := by
    simpa using hinv.sizes.storePayload _ (List.getElem_mem hin)
  refine ⟨_, execAll_rx _ _, hidle, fun n hn => ?_, framedEntry r.cfg mask payload r.store[id.toNat], ?_, rfl,
    fun p hp => read_framedEntry hold hp⟩
  · rw [hstore, List.getElem?_modify_ne _ _ hn.symm]
  · rw [hstore, List.getElem?_modify_eq, List.getElem?_eq_getElem hin]; rfl
end

section
/-! Proofs of the family 10_state: what each instruction can do to the state, and the claims that follow for the
invariants, the identity, `tx_busy`, the histories and the receive counters (spec/10_state.md R23 to R41). -/

namespace Sys2Proof.Machine

variable {i : Instr} {s t : State}

/-- The state that RESET leaves (R190; assumption log 3). -/
def afterReset (s : State) : State :=
  { State.resetWith s.cfg with
    txBeforeReset := s.txBeforeReset ++ s.txOut
    rxBeforeReset := s.rxBeforeReset ++ s.rxIn
    responses := s.responses
    pending := s.pending }

theorem exec_reset_eq (s : State) : exec .reset s = .next (afterReset s) := rfl

/-- Everything an instruction that completes can do: a command's effect, RX steps, a TX step, or reset (R58). -/
inductive InstrEffect (i : Instr) (s : State) : State → Prop where
  | commanded {t : State} (he : CommandEffect i s t) : InstrEffect i s t
  | received (bs : List Byte) : InstrEffect i s (rxSteps bs s)
  | taken (hi : i = .tx) : InstrEffect i s (txStep s)
  | cleared (hi : i = .reset) : InstrEffect i s (afterReset s)

theorem exec_effect (h : exec i s = .next t) : InstrEffect i s t := by
  rcases instr_kinds i with hc | hr | rfl | rfl
  · exact .commanded (command_effect hc h)
  · rw [exec_receive hr s.cfg.smax] at h; cases h; exact .received _
  · rw [exec_tx] at h; cases h; exact .taken rfl
  · rw [exec_reset_eq] at h; cases h; exact .cleared rfl

/-- A command writes the Transmit State and the responses only (R65). -/
theorem CommandEffect.frame (he : CommandEffect i s t) : t = withTransmit s t := by
  cases he <;> rfl

/-- A TX step writes the Transmit State and `tx_out` only (R65). -/
theorem txStep_frame (s : State) : txStep s = withTransmit s (txStep s) := by
  rcases txStep_cases s with ⟨-, e⟩ | ⟨-, -, e⟩ | ⟨-, -, e⟩ <;> rw [e] <;> rfl

@[simp] theorem txStep_selfNodeId (s : State) : (txStep s).selfNodeId = s.selfNodeId := by
  rcases txStep_cases s with ⟨-, e⟩ | ⟨-, -, e⟩ | ⟨-, -, e⟩ <;> rw [e] <;> rfl

@[simp] theorem txStep_responses (s : State) : (txStep s).responses = s.responses := by
  rcases txStep_cases s with ⟨-, e⟩ | ⟨-, -, e⟩ | ⟨-, -, e⟩ <;> rw [e] <;> rfl

/-- A TX step only adds to `tx_out` (R107). -/
theorem txStep_txOut_prefix (s : State) : s.txOut <+: (txStep s).txOut := by
  rcases txStep_cases s with ⟨-, e⟩ | ⟨-, -, e⟩ | ⟨-, -, e⟩ <;> rw [e]
  · exact List.prefix_append _ _
  · exact List.prefix_append _ _

/-! The invariants (R25, R30, R31, R34 to R38) -/

theorem afterReset_keeps_inv (h : Inv s) : Inv (afterReset s) := resetWith_inv s.cfg h.responses

theorem exec_keeps_inv (h : Inv s) (he : exec i s = .next t) : Inv t := by
  cases exec_effect he with
  | commanded hc => exact command_keeps_inv h hc
  | received bs => exact rxSteps_keeps_inv h
  | taken hi => exact txStep_keeps_inv h
  | cleared hi => exact afterReset_keeps_inv h

/-- A step that completes found no event, or executed an instruction on the state with fewer events to come. -/
theorem step_cases (h : step s = .next t) : t = s ∨ ∃ i p, exec i { s with pending := p } = .next t := by
  unfold step takeEvent at h
  cases hp : s.pending with
  | nil => simp only [hp] at h; cases h; exact .inl rfl
  | cons e rest =>
    simp only [hp] at h
    cases hd : decode s.cfg.smax e with
    | ok i => simp only [hd] at h; exact .inr ⟨i, rest, h⟩
    | error why => simp only [hd] at h; cases h

/-! The receive counters (R30, R31) -/

/-- Both receive counters are within their `CNTW` bits. -/
def CountersFit (s : State) : Prop := s.rxCount < 2 ^ s.cfg.cntw ∧ s.rxExpected < 2 ^ s.cfg.cntw

theorem storeByte_countersFit {d : Byte} (h : CountersFit s) : CountersFit (storeByte d s) :=
  ⟨toCounter_lt _, h.2⟩

theorem append_countersFit {d : Byte} (h : CountersFit s) : CountersFit (append d s) := by
  rcases append_cases d s with ⟨-, e⟩ | ⟨-, e⟩ <;> rw [e] <;> exact storeByte_countersFit (d := d) h

theorem rxStep_countersFit {data : Byte} (h : CountersFit s) : CountersFit (rxStep data s) := by
  have he := rxStep_effect data s
  generalize rxStep data s = t at he
  cases he with
  | moved st hst => exact h
  | nodeCaptured hst hm hn => exact h
  | maskCaptured hst hm h0 hc => exact ⟨Nat.two_pow_pos _, toCounter_lt _⟩
  | appended hst => exact append_countersFit (s := consumeByte data s) h

theorem rxSteps_countersFit : ∀ {bs : List Byte} {s : State}, CountersFit s → CountersFit (rxSteps bs s)
  | [], _, h => h
  | b :: _, _, h => by rw [rxSteps_cons]; exact rxSteps_countersFit (rxStep_countersFit h)

theorem exec_countersFit (h : CountersFit s) (he : exec i s = .next t) : CountersFit t := by
  cases exec_effect he with
  | commanded hc => rw [hc.frame]; exact h
  | received bs => exact rxSteps_countersFit h
  | taken hi => rw [txStep_frame]; exact h
  | cleared hi => exact ⟨Nat.two_pow_pos _, Nat.lt_of_le_of_lt total_pos total_lt_counter⟩

/-- `CNTW` is the least width that holds `T` (R30, decision D31). -/
theorem cntw_le {c : Config} {w : Nat} (h : c.T < 2 ^ w) : c.cntw ≤ w :=
  (Nat.log2_lt (Nat.ne_of_gt total_pos)).mpr h

end Sys2Proof.Machine

open Sys2Proof Sys2Proof.Machine

/-- Settles O54: a step executes one instruction at most, and every effect an instruction can have keeps the invariants. -/
theorem stepKeepsInvariant : Obligations.StepKeepsInvariant := by
  unfold Obligations.StepKeepsInvariant
  intro s t hinv hstep
  rcases step_cases hstep with rfl | ⟨i, p, he⟩
  · exact hinv
  · exact exec_keeps_inv hinv.unobserved he

/-- Settles O24: of all the effects of an instruction, only INIT's and reset's reach the identity. -/
theorem onlyInitBindsTheNodeId : Obligations.OnlyInitBindsTheNodeId := by
  unfold Obligations.OnlyInitBindsTheNodeId
  intro s t i he hne
  cases exec_effect he with
  | commanded hc =>
    cases hc with
    | answered st r hl hr => exact absurd rfl hne
    | bound n hi => exact .inl ⟨n, hi, rfl⟩
    | staged ch d hi hb hc => exact absurd rfl hne
    | started id hi hb hn => exact absurd rfl hne
  | received bs => exact absurd (by rw [rxSteps_frame]; rfl) hne
  | taken hi => exact absurd (txStep_selfNodeId s) hne
  | cleared hi => exact .inr ⟨hi, rfl⟩

/-- Settles O25: `tx_busy` differs after SEND accepted, after the TX step that completes, and after reset only. -/
theorem onlySendAndTxMoveBusy : Obligations.OnlySendAndTxMoveBusy := by
  unfold Obligations.OnlySendAndTxMoveBusy
  intro s t i he
  have unmoved : t.txBusy = s.txBusy → (s.txBusy = false → t.txBusy = true → i = .send) ∧
      (s.txBusy = true → t.txBusy = false → i = .reset ∨ i = .tx ∧ s.txIdx + 1 = s.txFrame.length) := by
    intro h; rw [h]; exact ⟨fun h0 h1 => by simp [h0] at h1, fun h1 h0 => by simp [h0] at h1⟩
  cases exec_effect he with
  | commanded hc =>
    cases hc with
    | answered st r hl hr => exact unmoved rfl
    | bound n hi => exact unmoved rfl
    | staged ch d hi hb hc => exact unmoved rfl
    | started id hi hb hn => exact ⟨fun _ _ => hi, fun h => by simp [hb] at h⟩
  | received bs => exact unmoved (by rw [rxSteps_frame]; rfl)
  | taken hi =>
    rcases txStep_cases s with ⟨-, e⟩ | ⟨-, -, e⟩ | ⟨hb, hl, -⟩
    · exact unmoved (by rw [e])
    · exact unmoved (by rw [e]; rfl)
    · exact ⟨fun h => by simp [hb] at h, fun _ _ => .inr ⟨hi, hl⟩⟩
  | cleared hi => exact ⟨fun _ => nofun, fun _ _ => .inl hi⟩

/-- Settles O53: a command adds a response, RX steps add to `rx_in`, a TX step to `tx_out`, and reset moves what there is
to what came before it. -/
theorem historiesOnlyGrow : Obligations.HistoriesOnlyGrow := by
  unfold Obligations.HistoriesOnlyGrow
  intro s t i he
  cases exec_effect he with
  | commanded hc => cases hc <;> exact ⟨List.prefix_rfl, List.prefix_rfl, List.prefix_append _ _⟩
  | received bs =>
    have hin : rxHistory (rxSteps bs s) = rxHistory s ++ bs := by
      rw [rxHistory, rxSteps_rxIn, rxSteps_frame]; exact (List.append_assoc _ _ _).symm
    rw [hin, rxSteps_frame]
    exact ⟨List.prefix_rfl, List.prefix_append _ _, List.prefix_rfl⟩
  | taken hi =>
    have hout : txHistory s <+: txHistory (txStep s) := by
      rw [txHistory, txHistory, (show (txStep s).txBeforeReset = s.txBeforeReset by rw [txStep_frame]; rfl)]
      exact (List.prefix_append_right_inj _).mpr (txStep_txOut_prefix s)
    refine ⟨hout, ?_, ?_⟩
    · rw [txStep_frame]; exact List.prefix_rfl
    · rw [txStep_responses]
  | cleared hi => exact ⟨List.prefix_append _ _, List.prefix_append _ _, List.prefix_rfl⟩

/-- Settles O60: `CNTW` is one more than the logarithm of `T`, every write of a counter goes through `toCounter`, and in a
frame in progress the count is below `T`. -/
theorem countersKeepTheirWidth : Obligations.CountersKeepTheirWidth := by
  unfold Obligations.CountersKeepTheirWidth
  exact ⟨fun c => ⟨total_lt_counter, fun w h => cntw_le h⟩, fun s t i hc hx he => exec_countersFit ⟨hc, hx⟩ he,
    fun s hinv hst => hinv.nextCount_eq hst⟩
end

section
/-! Proofs of the family 10_state: no run tells what the decoder's scratch and the stored bytes hold before a step has
written them (spec/10_state.md R33, R39). -/

namespace Sys2Proof.Machine

variable {u v s : State} {i : Instr} {b d : Byte} {st : RxState}

/-- Two entries of the store that no GET tells apart: one mask, and the same bytes in that mask's channels (R33, R162). -/
def EntriesAlike (c : Config) (e f : StoreEntry) : Prop :=
  f.valid = e.valid ∧ ∀ p ∈ positions c e.valid, Memory.read f.payload p = Memory.read e.payload p

/-- Two receivers alike in all that a step can still read: the scratch from the point where it was written (R39), and the
store's entries by their valid channels (R33). -/
structure ReceiversAlike (u v : State) : Prop where
  cfg        : v.cfg = u.cfg
  rxState    : v.rxState = u.rxState
  node       : u.rxState = .waitBitmask ∨ u.rxState = .getData ∨ u.rxState = .gotSymbolPending → v.rxNode = u.rxNode
  collecting : u.rxState = .getData ∨ u.rxState = .gotSymbolPending →
                 v.rxMask = u.rxMask ∧ v.rxCount = u.rxCount ∧ v.rxExpected = u.rxExpected ∧
                 v.rxBuf.take u.rxCount = u.rxBuf.take u.rxCount
  store      : ∀ n : Nat, Option.Rel (EntriesAlike u.cfg) u.store[n]? v.store[n]?

/-- Two blocks that no run tells apart: they differ in the receiver only, which has consumed the same bytes, and their
receivers are alike. -/
structure BlocksAlike (u v : State) : Prop where
  frame     : v = withReceive u v
  rxIn      : v.rxIn = u.rxIn
  receivers : ReceiversAlike u v

theorem entriesAlike_refl (c : Config) (e : StoreEntry) : EntriesAlike c e e := ⟨rfl, fun _ _ => rfl⟩

theorem blocksAlike_refl (s : State) : BlocksAlike s s :=
  ⟨rfl, rfl, rfl, rfl, fun _ => rfl, fun _ => ⟨rfl, rfl, rfl, rfl⟩, fun n => by
    cases s.store[n]? with
    | none => exact .none
    | some e => exact .some (entriesAlike_refl _ e)⟩

/-! What a command sees: masks, and the bytes of valid channels -/

theorem storeValid_congr (h : ReceiversAlike u v) (n : Nat) : storeValid v n = storeValid u n := by
  have hn := h.store n
  unfold storeValid
  generalize u.store[n]? = x, v.store[n]? = y at hn
  cases hn with
  | none => rfl
  | some he => exact he.1

theorem storePayload_congr (h : ReceiversAlike u v) {n p : Nat} (hp : p ∈ positions u.cfg (storeValid u n)) :
    Memory.read (storePayload v n) p = Memory.read (storePayload u n) p := by
  have hn := h.store n
  unfold storeValid at hp
  unfold storePayload
  generalize u.store[n]? = x, v.store[n]? = y at hn hp
  cases hn with
  | none => rfl
  | some he => exact he.2 p hp

theorem getBytes_congr {c : Config} {ch : Nat} {m m' : Memory}
    (h : ∀ p ∈ channelPositions c ch, Memory.read m' p = Memory.read m p) : getBytes c ch m' = getBytes c ch m := by
  refine List.map_congr_left fun j _ => ?_
  split
  · exact h _ (mem_channelPositions.mpr ⟨by omega, by omega⟩)
  · rfl

/-- GET of alike stores gives one response. -/
theorem execGet_congr {ch node : Byte} (h : ReceiversAlike u v) :
    ∃ st r, exec (.get ch node) u = .next (respond st r u) ∧ exec (.get ch node) v = .next (respond st r v) := by
  simp only [exec, execGet, answer, h.cfg, storeValid_congr h]
  split
  · exact ⟨_, _, rfl, rfl⟩
  · split
    · exact ⟨_, _, rfl, rfl⟩
    · split
      · exact ⟨_, _, rfl, rfl⟩
      · next hC hvalid =>
        refine ⟨_, _, rfl, ?_⟩
        rw [getBytes_congr fun p hp => storePayload_congr h
          (mem_positions.mpr ⟨ch.toNat, Nat.lt_of_not_le hC, by simpa using hvalid, hp⟩)]

/-- A TX step runs the same way whatever the receiver holds (R65). -/
theorem txStep_withReceive (u v : State) : txStep (withReceive u v) = withReceive (txStep u) v := by
  rcases txStep_cases u with ⟨hb, e⟩ | ⟨hb, hl, e⟩ | ⟨hb, hl, e⟩ <;> rw [e]
  · exact txStep_idle hb
  · exact txStep_midFrame (s := withReceive u v) hb hl
  · exact txStep_lastByte (s := withReceive u v) hb hl

/-- So does every command but GET (R65). -/
theorem exec_command_withReceive (hi : isCommand i = true) (hg : ∀ ch node, i ≠ .get ch node)
    (h : exec i u = .next s) (v : State) : exec i (withReceive u v) = .next (withReceive s v) := by
  cases i with
  | init node => cases h; rfl
  | set ch d =>
    cases hb : u.txBusy with
    | true => rw [exec_set_busy hb] at h; cases h; exact exec_set_busy (s := withReceive u v) hb
    | false =>
      by_cases hc : ch.toNat < u.cfg.C
      · rw [exec_set_ok hb hc] at h; cases h; exact exec_set_ok (s := withReceive u v) hb hc
      · have hc := Nat.le_of_not_lt hc
        rw [exec_set_unknown hb hc] at h; cases h; exact exec_set_unknown (s := withReceive u v) hb hc
  | send =>
    cases hb : u.txBusy with
    | true => rw [exec_send_busy hb] at h; cases h; exact exec_send_busy (s := withReceive u v) hb
    | false =>
      cases hn : u.selfNodeId with
      | none => rw [exec_send_unset hb hn] at h; cases h
      | some id => rw [exec_send_ok hb hn] at h; cases h; exact exec_send_ok (s := withReceive u v) hb hn
  | get ch node => exact absurd rfl (hg ch node)
  | illegalOp xx => cases h; rfl
  | illegalRsv op rsv => cases h; rfl
  | rx data => cases hi
  | tx => cases hi
  | reset => cases hi
  | wireStart => cases hi
  | wireNodeid n => cases hi
  | wireMask m => cases hi
  | wireData d => cases hi
  | wireEsc => cases hi

/-- What writes the Transmit State and the responses only, and does not read the receiver, keeps blocks alike. -/
theorem BlocksAlike.transmitted (h : BlocksAlike u v) (hs : s = withTransmit u s) :
    BlocksAlike s (withReceive s v) := by
  rw [hs]
  exact ⟨rfl, h.rxIn, rfl, h.receivers.rxState, h.receivers.node, h.receivers.collecting, h.receivers.store⟩

theorem BlocksAlike.responded (h : BlocksAlike u v) (st : Status) (r : List Byte) :
    BlocksAlike (respond st r u) (respond st r v) :=
  ⟨congrArg (respond st r) h.frame, h.rxIn, h.receivers.cfg, h.receivers.rxState, h.receivers.node,
    h.receivers.collecting, h.receivers.store⟩

theorem exec_command_alike (h : BlocksAlike u v) (hi : isCommand i = true) (he : exec i u = .next s) :
    ∃ t, exec i v = .next t ∧ BlocksAlike s t := by
  by_cases hg : ∃ ch node, i = .get ch node
  · obtain ⟨ch, node, rfl⟩ := hg
    obtain ⟨st, r, hu, hv⟩ := execGet_congr (ch := ch) (node := node) h.receivers
    rw [hu] at he; cases he
    exact ⟨_, hv, h.responded st r⟩
  · have hv := exec_command_withReceive hi (fun ch node e => hg ⟨ch, node, e⟩) he v
    rw [← h.frame] at hv
    exact ⟨_, hv, h.transmitted (command_effect hi he).frame⟩

theorem txStep_alike (h : BlocksAlike u v) : BlocksAlike (txStep u) (txStep v) := by
  have hv := txStep_withReceive u v
  rw [← h.frame] at hv
  exact hv ▸ h.transmitted (txStep_frame u)

/-! What a received byte does: scratch is written before it is read (R39) -/

theorem enterState_alike (h : ReceiversAlike u v)
    (hst : st = .idle ∨ st = .waitNodeId ∨ st = .gotSymbolPending ∧ u.rxState = .getData) :
    ReceiversAlike (enterState st u) (enterState st v) := by
  refine ⟨h.cfg, rfl, fun hor => ?_, fun hor => ?_, h.store⟩ <;> rcases hst with rfl | rfl | ⟨rfl, hg⟩
  · simp at hor
  · simp at hor
  · exact h.node (by simp [hg])
  · simp at hor
  · simp at hor
  · exact h.collecting (.inl hg)

theorem captureNode_alike (h : ReceiversAlike u v) :
    ReceiversAlike (enterState .waitBitmask (captureNode d u)) (enterState .waitBitmask (captureNode d v)) :=
  ⟨h.cfg, rfl, fun _ => rfl, by simp, h.store⟩

theorem captureMask_alike (h : ReceiversAlike u v) (hn : v.rxNode = u.rxNode) :
    ReceiversAlike (enterState .getData (captureMask d u)) (enterState .getData (captureMask d v)) :=
  ⟨h.cfg, rfl, fun _ => hn, fun _ => ⟨rfl, rfl, by simp [h.cfg], by simp⟩, h.store⟩

theorem rxWaitBitmask_alike (h : ReceiversAlike u v) (hn : v.rxNode = u.rxNode) :
    ReceiversAlike (rxWaitBitmask d u) (rxWaitBitmask d v) := by
  unfold rxWaitBitmask
  rw [h.cfg]
  split
  · exact enterState_alike h (by simp)
  · split
    · exact enterState_alike h (by simp)
    · split
      · exact enterState_alike h (by simp)
      · exact captureMask_alike h hn

theorem take_write_succ {m : Memory} {k : Nat} (h : k < m.length) :
    (Memory.write m k d).take (k + 1) = m.take k ++ [d] := by
  simp [Memory.write, List.take_succ_eq_append_getElem, List.take_set_of_le, h]

/-- The bytes a commit writes are all that is read at the mask's positions (R139). -/
theorem committed_alike {c : Config} {mask : Byte} {bs : List Byte} {e f : StoreEntry}
    (hl : bs.length = payloadLength c mask) (he : e.payload.length = c.T) (hf : f.payload.length = c.T) :
    EntriesAlike c ⟨mask, scatter (positions c mask) bs e.payload⟩ ⟨mask, scatter (positions c mask) bs f.payload⟩ := by
  have gathered : ∀ {m : Memory}, m.length = c.T → gather (scatter (positions c mask) bs m) (positions c mask) = bs :=
    fun hm => gather_scatter positions_nodup (fun _ hx => hm ▸ positions_lt hx) hl
  exact ⟨rfl, List.map_inj_left.mp ((gathered hf).trans (gathered he).symm)⟩

/-- Stores stay alike where each has one entry modified and the two new entries are alike. -/
theorem modify_alike {c : Config} {xs ys : List StoreEntry} {k : Nat} {f g : StoreEntry → StoreEntry}
    (h : ∀ n : Nat, Option.Rel (EntriesAlike c) xs[n]? ys[n]?)
    (hk : ∀ x ∈ xs, ∀ y ∈ ys, EntriesAlike c (f x) (g y)) (n : Nat) :
    Option.Rel (EntriesAlike c) (xs.modify k f)[n]? (ys.modify k g)[n]? := by
  by_cases hn : k = n
  · subst hn
    rw [List.getElem?_modify_eq, List.getElem?_modify_eq]
    have hx : ∀ x, xs[k]? = some x → x ∈ xs := fun _ => List.mem_of_getElem?
    have hy : ∀ y, ys[k]? = some y → y ∈ ys := fun _ => List.mem_of_getElem?
    have hr := h k
    generalize xs[k]? = x, ys[k]? = y at hx hy hr
    cases hr with
    | none => exact .none
    | some _ => exact .some (hk _ (hx _ rfl) _ (hy _ rfl))
  · rw [List.getElem?_modify_ne _ _ hn, List.getElem?_modify_ne _ _ hn]
    exact h n

/-- A byte stored keeps the assembly buffers alike below the new count (R138). -/
theorem storeByte_buffers (hu : Inv u) (hv : Inv v) (h : ReceiversAlike u v)
    (hst : u.rxState = .getData ∨ u.rxState = .gotSymbolPending) :
    (storeByte d v).rxBuf.take (nextCount u) = (storeByte d u).rxBuf.take (nextCount u) := by
  obtain ⟨-, hcount, -, hbuf⟩ := h.collecting hst
  have hlt := hu.count_lt hst
  have hul : u.rxBuf.length = u.cfg.T := by simpa using hu.sizes.rxBuf
  have hvl : v.rxBuf.length = u.cfg.T := by simpa [h.cfg] using hv.sizes.rxBuf
  rw [hu.nextCount_eq hst, storeByte_rxBuf, storeByte_rxBuf, hcount, take_write_succ (by omega),
    take_write_succ (by omega), hbuf]

/-- The frame's last byte leaves alike entries at its node, whatever the stores held there (R33, R139). -/
theorem commit_alike (hu : Inv u) (hv : Inv v) (h : ReceiversAlike u v)
    (hst : u.rxState = .getData ∨ u.rxState = .gotSymbolPending) (hl : nextCount u = u.rxExpected) :
    ReceiversAlike (enterState .idle (commit (storeByte d u))) (enterState .idle (commit (storeByte d v))) := by
  obtain ⟨hmask, -, hexpected, -⟩ := h.collecting hst
  obtain ⟨-, -, hlen, -⟩ := hu.decoder.mask hst
  have hbuf := storeByte_buffers (d := d) hu hv h hst
  rw [hl] at hbuf
  have htake : ((storeByte d u).rxBuf.take u.rxExpected).length = payloadLength u.cfg u.rxMask := by
    have hul : u.rxBuf.length = u.cfg.T := by simpa using hu.sizes.rxBuf
    have hT := hu.decoder.expected.2
    rw [List.length_take, storeByte_rxBuf, write_length]
    omega
  refine ⟨h.cfg, rfl, by simp, by simp, ?_⟩
  simp only [enterState_store, commit_store, enterState_cfg, commit_cfg, storeByte_store, storeByte_rxNode,
    storeByte_rxMask, storeByte_rxExpected, storeByte_cfg, h.cfg, h.node (.inr hst), hmask, hexpected, hbuf]
  refine modify_alike h.store fun e he f hf => committed_alike htake ?_ ?_
  · simpa using hu.sizes.storePayload e he
  · simpa [h.cfg] using hv.sizes.storePayload f hf

theorem append_alike (hu : Inv u) (hv : Inv v) (h : ReceiversAlike u v)
    (hst : u.rxState = .getData ∨ u.rxState = .gotSymbolPending) : ReceiversAlike (append d u) (append d v) := by
  obtain ⟨hmask, hcount, hexpected, -⟩ := h.collecting hst
  have hnext : nextCount v = nextCount u := by rw [nextCount, nextCount, h.cfg, hcount]
  by_cases hl : nextCount u = u.rxExpected
  · rw [append_last hl, append_last (by rw [hnext, hl, hexpected])]
    exact commit_alike hu hv h hst hl
  · rw [append_more hl, append_more (by rwa [hnext, hexpected])]
    exact ⟨h.cfg, rfl, fun _ => h.node (.inr hst), fun _ => ⟨hmask, hnext, hexpected, storeByte_buffers hu hv h hst⟩,
      h.store⟩

theorem consumeByte_alike (h : ReceiversAlike u v) : ReceiversAlike (consumeByte b u) (consumeByte b v) :=
  ⟨h.cfg, h.rxState, h.node, h.collecting, h.store⟩

/-- One byte received by alike receivers leaves them alike: each control state's rule reads only what was written. -/
theorem rxStep_receivers (hu : Inv u) (hv : Inv v) (h : ReceiversAlike u v) :
    ReceiversAlike (rxStep b u) (rxStep b v) := by
  have hc : ReceiversAlike (consumeByte b u) (consumeByte b v) := consumeByte_alike h
  have hcu : Inv (consumeByte b u) := hu.unobserved
  have hcv : Inv (consumeByte b v) := hv.unobserved
  cases hs : u.rxState with
  | idle =>
    rw [rxStep_idle hs, rxStep_idle (h.rxState.trans hs), rxIdle, rxIdle]
    split
    · exact enterState_alike hc (by simp)
    · exact enterState_alike hc (by simp)
  | waitNodeId =>
    rw [rxStep_waitNodeId hs, rxStep_waitNodeId (h.rxState.trans hs), rxWaitNodeId, rxWaitNodeId, hc.cfg]
    split
    · exact enterState_alike hc (by simp)
    · split
      · exact enterState_alike hc (by simp)
      · exact captureNode_alike hc
  | waitBitmask =>
    rw [rxStep_waitBitmask hs, rxStep_waitBitmask (h.rxState.trans hs)]
    exact rxWaitBitmask_alike hc (h.node (by simp [hs]))
  | getData =>
    rw [rxStep_getData hs, rxStep_getData (h.rxState.trans hs), rxGetData, rxGetData]
    split
    · exact enterState_alike hc (by simp [hs])
    · exact append_alike hcu hcv hc (.inl hs)
  | gotSymbolPending =>
    by_cases hb : b = marker
    · subst hb
      rw [rxStep_escaped hs, rxStep_escaped (h.rxState.trans hs)]
      exact append_alike hcu hcv hc (.inr hs)
    · rw [rxStep_demoted hs hb, rxStep_demoted (h.rxState.trans hs) hb]
      exact rxWaitBitmask_alike hc (h.node (by simp [hs]))

theorem rxSteps_receivers : ∀ {bs : List Byte} {u v : State}, Inv u → Inv v → ReceiversAlike u v →
    ReceiversAlike (rxSteps bs u) (rxSteps bs v)
  | [], _, _, _, _, h => h
  | _ :: _, _, _, hu, hv, h => by
    rw [rxSteps_cons, rxSteps_cons]
    exact rxSteps_receivers (rxStep_keeps_inv hu) (rxStep_keeps_inv hv) (rxStep_receivers hu hv h)

theorem rxSteps_alike {bs : List Byte} (hu : Inv u) (hv : Inv v) (h : BlocksAlike u v) :
    BlocksAlike (rxSteps bs u) (rxSteps bs v) := by
  refine ⟨?_, by rw [rxSteps_rxIn, rxSteps_rxIn, h.rxIn], rxSteps_receivers hu hv h.receivers⟩
  calc rxSteps bs v
      = withReceive v (rxSteps bs v) := rxSteps_frame bs v
    _ = withReceive (withReceive u v) (rxSteps bs v) := congrArg (withReceive · (rxSteps bs v)) h.frame
    _ = withReceive (withReceive u (rxSteps bs u)) (rxSteps bs v) := rfl
    _ = withReceive (rxSteps bs u) (rxSteps bs v) := by rw [← rxSteps_frame]

/-! Runs -/

theorem afterReset_congr (h : BlocksAlike u v) : afterReset v = afterReset u :=
  calc afterReset v
      = afterReset (withReceive u v) := congrArg afterReset h.frame
    _ = { afterReset u with rxBeforeReset := u.rxBeforeReset ++ v.rxIn } := rfl
    _ = afterReset u := by rw [h.rxIn]; rfl

/-- An instruction that completes on one of two alike blocks completes on the other, and leaves them alike. -/
theorem exec_alike (hu : Inv u) (hv : Inv v) (h : BlocksAlike u v) (he : exec i u = .next s) :
    ∃ t, exec i v = .next t ∧ BlocksAlike s t := by
  rcases instr_kinds i with hc | hr | rfl | rfl
  · exact exec_command_alike h hc he
  · rw [exec_receive hr u.cfg.smax] at he; cases he
    exact ⟨_, exec_receive hr u.cfg.smax v, rxSteps_alike hu hv h⟩
  · rw [exec_tx] at he; cases he
    exact ⟨_, exec_tx, txStep_alike h⟩
  · rw [exec_reset_eq] at he; cases he
    exact ⟨_, (exec_reset_eq v).trans (congrArg _ (afterReset_congr h)), blocksAlike_refl _⟩

theorem execAll_alike : ∀ {is : List Instr} {u v : State}, Inv u → Inv v → BlocksAlike u v → execAll is u = .next s →
    ∃ t, execAll is v = .next t ∧ BlocksAlike s t
  | [], _, v, _, _, h, he => by cases he; exact ⟨v, rfl, h⟩
  | i :: is, _, _, hu, hv, h, he => by
    obtain ⟨u', hu', hrest⟩ := execAll_cons_next he
    obtain ⟨v', hv', h'⟩ := exec_alike hu hv h hu'
    rw [execAll_cons hv']
    exact execAll_alike (exec_keeps_inv hu hu') (exec_keeps_inv hv hv') h' hrest

/-- Entries with nothing valid are alike whatever bytes they hold (R33). -/
theorem entriesAlike_of_invalid {c : Config} {e f : StoreEntry} (he : e.valid = 0) (hf : f.valid = 0) :
    EntriesAlike c e f := by
  refine ⟨hf.trans he.symm, fun p hp => ?_⟩
  obtain ⟨i, -, hbit, -⟩ := mem_positions.mp hp
  simp [he] at hbit

/-- In Idle with nothing valid, two receivers are alike whatever they hold (R33, R39). -/
theorem receiversAlike_of_idle (hu : Inv u) (hv : Inv v) (hc : v.cfg = u.cfg) (hst : u.rxState = .idle)
    (hst' : v.rxState = .idle) (h0 : ∀ e ∈ u.store, e.valid = 0) (h0' : ∀ e ∈ v.store, e.valid = 0) :
    ReceiversAlike u v := by
  refine ⟨hc, hst'.trans hst.symm, by simp [hst], by simp [hst], fun n => ?_⟩
  have hlen : v.store.length = u.store.length := by rw [hu.sizes.store, hv.sizes.store, hc]
  by_cases hn : n < u.store.length
  · rw [List.getElem?_eq_getElem hn, List.getElem?_eq_getElem (hlen ▸ hn)]
    exact .some (entriesAlike_of_invalid (h0 _ (List.getElem_mem _)) (h0' _ (List.getElem_mem _)))
  · rw [List.getElem?_eq_none (by omega), List.getElem?_eq_none (by omega)]
    exact .none

theorem ReceiversAlike.validMasks (h : ReceiversAlike u v) : v.store.map (·.valid) = u.store.map (·.valid) := by
  refine List.ext_getElem? fun n => ?_
  have hn := h.store n
  rw [List.getElem?_map, List.getElem?_map]
  generalize u.store[n]? = x, v.store[n]? = y at hn
  cases hn with
  | none => rfl
  | some he => exact congrArg some he.1

end Sys2Proof.Machine

open Sys2Proof Sys2Proof.Machine

/-- Settles O59, by a simulation: `BlocksAlike` holds of the two blocks, every instruction keeps it, and it gives the
observations. -/
theorem resetContentsAreUnobservable : Obligations.ResetContentsAreUnobservable := by
  unfold Obligations.ResetContentsAreUnobservable
  intro u v s is hu hv hst h0 h0' hframe hrun
  have hrx : ReceiversAlike u v := receiversAlike_of_idle hu hv (by rw [hframe]) hst (by rw [hframe]; exact hst) h0 h0'
  have hin : v.rxIn = u.rxIn := by rw [hframe]
  have hwith : v = withReceive u v := by rw [withReceive, hin, hrx.rxState]; exact hframe
  obtain ⟨t, ht, h⟩ := execAll_alike hu hv ⟨hwith, hin, hrx⟩ hrun
  refine ⟨t, ht, ?_, ?_, ?_, h.receivers.rxState, h.receivers.validMasks⟩ <;> rw [h.frame] <;> rfl
end

section
/-! Proofs of the family 20_memory: one step per event, the frame in flight, and the two halves of the state that the
host and sink, and the source, keep apart (spec/20_memory.md R56 to R65). -/

namespace Sys2Proof.Machine

variable {i : Instr} {s t : State}

/-- A step whose event decodes is its instruction on the state without that event (R58, R59). -/
theorem step_of_event {e : Event} {rest : List Event} (hp : s.pending = e :: rest)
    (hd : decode s.cfg.smax e = .ok i) : step s = exec i { s with pending := rest } := by
  simp [step, takeEvent, hp, hd]

/-! What each agent's instructions write (R65) -/

/-- A command or a TX writes the Transmit State, `tx_out` and the responses only (R65). -/
theorem exec_transmit_frame (hi : isCommand i = true ∨ i = .tx) (he : exec i s = .next t) : t = withTransmit s t := by
  rcases hi with hc | rfl
  · exact (command_effect hc he).frame
  · rw [exec_tx] at he; cases he; exact txStep_frame s

/-- What the source offers writes the Receive State, the store and `rx_in` only (R65). -/
theorem exec_receive_frame (hr : isReceive i = true) (he : exec i s = .next t) : t = withReceive s t := by
  rw [exec_receive hr s.cfg.smax] at he; cases he; exact rxSteps_frame _ s

/-- No instruction writes the configuration (R20) or the events to come. -/
theorem exec_cfg_pending (he : exec i s = .next t) : t.cfg = s.cfg ∧ t.pending = s.pending := by
  rcases instr_kinds i with hc | hr | htx | rfl
  · rw [exec_transmit_frame (.inl hc) he]; exact ⟨rfl, rfl⟩
  · rw [exec_receive_frame hr he]; exact ⟨rfl, rfl⟩
  · rw [exec_transmit_frame (.inr htx) he]; exact ⟨rfl, rfl⟩
  · rw [exec_reset_eq] at he; cases he; exact ⟨rfl, rfl⟩

/-! Steps of different agents in either order (R59) -/

/-- Only SEND without a node identity does not complete (R105). -/
theorem exec_completes_or_unset (i : Instr) (s : State) :
    (∃ t, exec i s = .next t) ∨ (i = .send ∧ s.txBusy = false ∧ s.selfNodeId = none) := by
  cases i with
  | set ch d => left; simp only [exec, execSet]; split_ifs <;> exact ⟨_, rfl⟩
  | get ch node => left; simp only [exec, execGet]; split_ifs <;> exact ⟨_, rfl⟩
  | send =>
    cases hb : s.txBusy with
    | true => exact .inl ⟨_, exec_send_busy hb⟩
    | false =>
      cases hn : s.selfNodeId with
      | none => exact .inr ⟨rfl, rfl, rfl⟩
      | some id => exact .inl ⟨_, exec_send_ok hb hn⟩
  | _ => exact .inl ⟨_, rfl⟩

/-- A command other than GET, or a TX, that completes before an RX step completes after it with the same state: the RX
step's half of that state comes from the RX step on `s`, the other half from the instruction on `s`. -/
theorem exec_rxStep (hi : (isCommand i = true ∧ ∀ ch node, i ≠ .get ch node) ∨ i = .tx) (he : exec i s = .next t)
    (data : Byte) : exec i (rxStep data s) = .next (rxStep data t) := by
  have after_rx : exec i (rxStep data s) = .next (withReceive t (rxStep data s)) := by
    rw [rxStep_frame data s]
    rcases hi with ⟨hc, hg⟩ | rfl
    · exact exec_command_withReceive hc hg he _
    · rw [exec_tx] at he; cases he; exact congrArg _ (txStep_withReceive s _)
  have ht : t = withTransmit s t := exec_transmit_frame (hi.imp_left And.left) he
  have halves : withReceive t (rxStep data s) = rxStep data t :=
    calc withReceive t (rxStep data s)
        = withReceive (withTransmit s t) (rxStep data s) := congrArg (withReceive · _) ht
      _ = withTransmit (withReceive s (rxStep data s)) t := rfl
      _ = withTransmit (rxStep data s) t := congrArg (withTransmit · t) (rxStep_frame data s).symm
      _ = rxStep data (withTransmit s t) := (rxStep_withTransmit data s t).symm
      _ = rxStep data t := congrArg (rxStep data) ht.symm
  rw [after_rx, halves]

end Sys2Proof.Machine

open Sys2Proof Sys2Proof.Machine

/-- Settles O21: no command accepted while busy reaches the frame, and a TX step before the last byte moves the index. -/
theorem busyFreezesTheFrame : Obligations.BusyFreezesTheFrame := by
  unfold Obligations.BusyFreezesTheFrame
  intro s t i hbusy he
  cases exec_effect he with
  | commanded hc =>
    cases hc with
    | answered st r hl hr => exact .inl ⟨hbusy, rfl, rfl, rfl⟩
    | bound n hi => exact .inl ⟨hbusy, rfl, rfl, rfl⟩
    | staged ch d hi hb hc => simp [hbusy] at hb
    | started id hi hb hn => simp [hbusy] at hb
  | received bs => rw [rxSteps_frame]; exact .inl ⟨hbusy, rfl, rfl, rfl⟩
  | taken hi =>
    rcases txStep_cases s with ⟨hb, -⟩ | ⟨-, -, e⟩ | ⟨-, hl, e⟩
    · simp [hbusy] at hb
    · rw [e]; exact .inl ⟨hbusy, rfl, rfl, rfl⟩
    · rw [e]; exact .inr ⟨rfl, .inr ⟨hi, hl⟩⟩
  | cleared hi => exact .inr ⟨rfl, .inl hi⟩

/-- Settles O51: a command or a TX step leaves `withTransmit` of the state it found, a received symbol `withReceive`. -/
theorem agentsKeepToTheirState : Obligations.AgentsKeepToTheirState := by
  unfold Obligations.AgentsKeepToTheirState
  intro s t i he
  refine ⟨fun hi => ?_, fun hr => ?_, exec_cfg_pending he⟩
  · rw [exec_transmit_frame hi he]; exact ⟨rfl, rfl, rfl, rfl, rfl, rfl, rfl, rfl⟩
  · rw [exec_receive_frame hr he]; exact ⟨rfl, rfl, rfl, rfl, rfl, rfl, rfl, rfl⟩

/-- Settles O52: the two steps write disjoint halves of the state and neither reads the other's; where SEND faults, the RX
step leaves what makes it fault. -/
theorem independentStepsCommute : Obligations.IndependentStepsCommute := by
  unfold Obligations.IndependentStepsCommute
  intro s i data hi
  rw [execAll_cons (s := s) (exec_rx data)]
  rcases exec_completes_or_unset i s with ⟨t, he⟩ | ⟨rfl, hb, hn⟩
  · rw [execAll_cons he, execAll_cons (exec_rx data), execAll_cons (exec_rxStep hi he data)]
  · have before_rx : exec .send s = .fault .sendBeforeInit := exec_send_unset hb hn
    have after_rx : exec .send (rxStep data s) = .fault .sendBeforeInit := exec_send_unset (by simpa) (by simpa)
    simp only [execAll, before_rx, after_rx]

/-- Settles O5: a word placed by `withFetchWord` is the next event, and taking it gives back the state it was placed in. -/
theorem stepRunsNextEvent : Obligations.StepRunsNextEvent := by
  unfold Obligations.StepRunsNextEvent
  exact ⟨fun s e rest i hp hd => step_of_event hp hd,
    fun s nbits w i hd => step_of_event (s := s.withFetchWord nbits w) rfl hd⟩
end

section
/-! Proofs of the family 30_encoding: command words and their fields, the length of a frame, the ports' outputs and the
wire symbols (spec/30_encoding.md R70 to R83). -/

namespace Sys2Proof

variable {low ch node : Byte} {d : List Byte}

/-! The decoder by the fields of the low byte: one equation per row of the opcode table (R75, R76) -/

theorem decodeCommand_illegalRsv (hr : rsvField low ≠ 0) :
    decodeCommand low ch node d = .illegalRsv (opField low) (rsvField low) := if_pos hr

theorem decodeCommand_init (hr : rsvField low = 0) (ho : opField low = 0) :
    decodeCommand low ch node d = .init node := by simp [decodeCommand, hr, ho]

theorem decodeCommand_set (hr : rsvField low = 0) (ho : opField low = 1) :
    decodeCommand low ch node d = .set ch d := by simp [decodeCommand, hr, ho]

theorem decodeCommand_send (hr : rsvField low = 0) (ho : opField low = 2) :
    decodeCommand low ch node d = .send := by simp [decodeCommand, hr, ho]

theorem decodeCommand_get (hr : rsvField low = 0) (ho : opField low = 3) :
    decodeCommand low ch node d = .get ch node := by simp [decodeCommand, hr, ho]

theorem decodeCommand_illegalOp (hr : rsvField low = 0) (ho : 4 ≤ (opField low).toNat) :
    decodeCommand low ch node d = .illegalOp ((opField low).extractLsb' 0 2) := by
  have other : ∀ op : BitVec 3, op.toNat < 4 → opField low ≠ op := fun op hlt e => by
    rw [e] at ho; omega
  rw [decodeCommand, if_neg (not_not_intro hr), if_neg (other 0 (by decide)), if_neg (other 1 (by decide)),
    if_neg (other 2 (by decide)), if_neg (other 3 (by decide))]

/-- The `op` that the encoder writes for ILLEGAL_OP is reserved, and its two low bits are the operand (R76). -/
theorem reservedOp_fields : ∀ xx : BitVec 2,
    4 ≤ ((1 : BitVec 1) ++ xx).toNat ∧ ((1 : BitVec 1) ++ xx).extractLsb' 0 2 = xx := by decide

/-! When an instruction with a check is well formed -/

theorem wellFormed_set {smax : Nat} : (Instr.set ch d).WellFormed smax ↔ d.length = smax := by
  simp [Instr.WellFormed, Instr.illFormed]

theorem wellFormed_illegalRsv {smax : Nat} {op : BitVec 3} {rsv : BitVec 5} :
    (Instr.illegalRsv op rsv).WellFormed smax ↔ rsv ≠ 0 := by
  simp [Instr.WellFormed, Instr.illFormed]

theorem wellFormed_wireData {smax : Nat} {b : Byte} : (Instr.wireData b).WellFormed smax ↔ b ≠ marker := by
  simp [Instr.WellFormed, Instr.illFormed]

/-- A command word of the port's width decodes to what its fields say (R71, R75). -/
theorem decode_commandEvent_eq {smax : Nat} {i : Instr} (hd : d.length = smax) (h : decodeCommand low ch node d = i) :
    decode smax (commandEvent low ch node d) = .ok i := by rw [decode_commandEvent hd, h]

theorem decode_encode {smax : Nat} {i : Instr} (h : i.WellFormed smax) : decode smax (encode smax i) = .ok i := by
  cases i with
  | init node => exact decode_commandEvent_eq (by simp) (decodeCommand_init (by simp) (by simp))
  | set ch d => exact decode_commandEvent_eq (wellFormed_set.mp h) (decodeCommand_set (by simp) (by simp))
  | send => exact decode_commandEvent_eq (by simp) (decodeCommand_send (by simp) (by simp))
  | get ch node => exact decode_commandEvent_eq (by simp) (decodeCommand_get (by simp) (by simp))
  | illegalOp xx =>
    obtain ⟨hop, hxx⟩ := reservedOp_fields xx
    refine decode_commandEvent_eq (by simp) ?_
    rw [decodeCommand_illegalOp (rsvField_lowByte _ _) (by rwa [opField_lowByte]), opField_lowByte, hxx]
  | illegalRsv op rsv =>
    refine decode_commandEvent_eq (by simp) ?_
    rw [decodeCommand_illegalRsv (by simpa using wellFormed_illegalRsv.mp h), opField_lowByte, rsvField_lowByte]
  | wireData b => exact if_neg (wellFormed_wireData.mp h)
  | rx b => rfl
  | tx => rfl
  | reset => rfl
  | wireStart => rfl
  | wireNodeid n => rfl
  | wireMask m => rfl
  | wireEsc => rfl

end Sys2Proof

namespace Sys2Proof.Machine

variable {s : State} {d d' : List Byte}

/-- A word with a reserved `op` or a `rsv` that is not 0 only answers IllegalCommand (R76, R109). -/
theorem exec_decodeCommand_illegal {low ch node : Byte} (h : 4 ≤ (opField low).toNat ∨ rsvField low ≠ 0) :
    exec (decodeCommand low ch node d) s = .next (answer .illegalCommand s) := by
  by_cases hr : rsvField low = 0
  · rw [decodeCommand_illegalOp hr (h.resolve_right (not_not_intro hr))]; rfl
  · rw [decodeCommand_illegalRsv hr]; rfl

/-- SET's data operand is the first `size[ch]` bytes of the data field (R72). -/
theorem setData_congr {c : Config} {ch : Nat} (h : ∀ j < c.size ch, d[j]? = d'[j]?) :
    setData c ch d = setData c ch d' :=
  List.map_congr_left fun j hj => by
    rw [List.getD_eq_getElem?_getD, List.getD_eq_getElem?_getD, h j (List.mem_range.mp hj)]

/-- Each payload byte is sent as one byte or two (R81). -/
theorem frame_length_le_fmax {c : Config} {id mask : Byte} {m : Memory} : (frame c id mask m).length ≤ c.fmax := by
  have hpayload : payloadLength c mask ≤ c.T := payloadLength_le
  have hmarkers : (gather m (positions c mask)).count marker ≤ payloadLength c mask :=
    List.count_le_length.trans_eq gather_length
  rw [frame_length, Config.fmax]
  omega

/-- A TX step while busy hands over the byte on offer with `tx_last`, completing the frame or not (R107, R108). -/
theorem txStep_txOut (hb : s.txBusy = true) : (txStep s).txOut = s.txOut ++ [(txData s, txLast s)] := by
  rcases txStep_cases s with ⟨h, -⟩ | ⟨-, -, e⟩ | ⟨-, -, e⟩
  · simp [hb] at h
  · rw [e, handByte_txOut]
  · rw [e, completeSend_txOut, handByte_txOut]

/-- `tx_last` marks the frame's last byte (R70, R82). -/
theorem txLast_iff (h : s.txIdx < s.txFrame.length) : txLast s = true ↔ s.txIdx = s.txFrame.length - 1 := by
  rw [txLast, beq_iff_eq]; omega

/-- The low byte of the response word has the status in bits `[2:0]` and 0 in bits `[7:3]` (R73). -/
theorem statusByte_fields : ∀ code : BitVec 3,
    (code.setWidth 8).extractLsb' 3 5 = 0 ∧ (code.setWidth 8).extractLsb' 0 3 = code := by decide

/-- A payload byte received as its stuffed bytes in GetData, before the last expected byte, is stored once (R136 to
R138). -/
theorem rxSteps_stuff_more (hinv : Inv s) (hst : s.rxState = .getData) (hmore : s.rxCount + 1 ≠ s.rxExpected)
    (b : Byte) : rxSteps (stuff b) s = { s with
      rxIn := s.rxIn ++ stuff b, rxBuf := s.rxBuf.set s.rxCount b, rxCount := s.rxCount + 1 } := by
  rw [rxSteps_stuff hst (hinv.count_lt (.inl hst)), if_neg hmore]; rfl

end Sys2Proof.Machine

open Sys2Proof Sys2Proof.Machine

/-- Settles O1, by cases on the instruction: the fields of each encoding pick the row of its instruction. -/
theorem decodeOfEncodeIsIdentity : Obligations.DecodeOfEncodeIsIdentity := by
  unfold Obligations.DecodeOfEncodeIsIdentity
  exact fun _ _ h => decode_encode h

/-- Settles O3: `op` and `rsv` are the low byte's remainder and quotient by 8, and the decoder picks its row by them. -/
theorem illegalCommandWords : Obligations.IllegalCommandWords := by
  unfold Obligations.IllegalCommandWords
  intro low ch node d
  have hop := opField_toNat low
  have hrsv := rsvField_toNat low
  refine ⟨_, decode_command rfl, fun hill s => ?_, fun ⟨_, hr0⟩ => ?_⟩
  · refine exec_decodeCommand_illegal (hill.imp (by rw [hop]; exact id) fun hne hr => hne ?_)
    rw [← hrsv, hr]; rfl
  · have hr : rsvField low = 0 := BitVec.eq_of_toNat_eq (hrsv.trans hr0)
    have op_eq : ∀ op : BitVec 3, low.toNat % 8 = op.toNat → opField low = op :=
      fun op h => BitVec.eq_of_toNat_eq (hop.trans h)
    exact ⟨fun h => decodeCommand_init hr (op_eq 0 h), fun h => decodeCommand_set hr (op_eq 1 h),
      fun h => decodeCommand_send hr (op_eq 2 h), fun h => decodeCommand_get hr (op_eq 3 h)⟩

/-- Settles O4: only an accepted SET reads its data field, through `setData`. -/
theorem setIgnoresBytesPastTheChannel : Obligations.SetIgnoresBytesPastTheChannel := by
  unfold Obligations.SetIgnoresBytesPastTheChannel
  intro s ch d d' _ _ hagree
  cases hb : s.txBusy with
  | true => rw [exec_set_busy hb, exec_set_busy hb]
  | false =>
    by_cases hc : ch.toNat < s.cfg.C
    · rw [exec_set_ok hb hc, exec_set_ok hb hc, stageChannel, setData_congr (hagree hc)]; rfl
    · rw [exec_set_unknown hb (Nat.le_of_not_lt hc), exec_set_unknown hb (Nat.le_of_not_lt hc)]

/-- Settles O20: stuffing adds one byte for each payload byte 0xFF, and the payload has at most `T` bytes. -/
theorem frameLengthIsBounded : Obligations.FrameLengthIsBounded := by
  unfold Obligations.FrameLengthIsBounded
  exact fun c id mask payload =>
    ⟨by rw [frame_length, payloadLength_eq_sum]; rfl, frame_length_ge, frame_length_le_fmax⟩

/-- Settles O2, by running the decoder on each word. -/
theorem writtenWordsDecode : Obligations.WrittenWordsDecode := by
  unfold Obligations.WrittenWordsDecode
  decide

/-- Settles O16: the TX step is enabled only while busy. -/
theorem txWithNothingOnOffer : Obligations.TxWithNothingOnOffer := by
  unfold Obligations.TxWithNothingOnOffer
  intro s hb
  rw [exec_tx, txStep_idle hb]

/-- Settles O26: both cases of a TX step while busy hand over the byte on offer. -/
theorem portOutputs : Obligations.PortOutputs := by
  unfold Obligations.PortOutputs
  refine fun s => ⟨rfl, rfl, rfl, fun hb b hget => ⟨?_, ?_, _, exec_tx, txStep_txOut hb⟩⟩
  · simp [txData, hget]
  · exact txLast_iff (List.getElem?_eq_some_iff.mp hget).1

/-- Settles O27: the status code is widened to a byte, and the codes are the table's. -/
theorem responseWordLayout : Obligations.ResponseWordLayout := by
  unfold Obligations.ResponseWordLayout
  intro st r
  obtain ⟨hrest, hcode⟩ := statusByte_fields (statusCode st)
  refine ⟨_, rfl, hrest, hcode.trans ?_⟩
  cases st <;> rfl

/-- Settles O46: what the source offers is RX steps of its bytes, and so is a run of RX. -/
theorem wireSymbolIsItsBytes : Obligations.WireSymbolIsItsBytes := by
  unfold Obligations.WireSymbolIsItsBytes
  exact fun s smax i hr => ⟨_, exec_receive hr smax s, execAll_rx _ s⟩

/-- Settles O47: the three symbols are the RX steps of a header that the receiver accepts. -/
theorem wireHeaderOpensAFrame : Obligations.WireHeaderOpensAFrame := by
  unfold Obligations.WireHeaderOpensAFrame
  intro s n m hst hn hm h0 hc
  have hrun : execAll [.wireStart, .wireNodeid n, .wireMask m] s = .next (rxSteps [marker, n, m] s) := rfl
  rw [hrun, rxSteps_header hst hn h0 hm hc]; rfl

/-- Settles O48: each symbol is the RX steps of one stuffed byte. -/
theorem wirePayloadSymbolStoresOneByte : Obligations.WirePayloadSymbolStoresOneByte := by
  unfold Obligations.WirePayloadSymbolStoresOneByte
  intro s d hinv hst hmore
  have stored := rxSteps_stuff_more hinv hst hmore
  refine ⟨fun hd => ?_, congrArg Host.Outcome.next (stored marker)⟩
  have hstuff : stuff d = [d] := if_neg hd
  have hrun : exec (.wireData d) s = .next (rxSteps (stuff d) s) := by rw [hstuff]; rfl
  rw [hrun, stored d, hstuff]
end

section
/-! Proofs of the family 40_encoder: what INIT, SET, SEND and TX do, the source's one synchronous send, and how a
receiver reads the headers of R111 and R112 (spec/40_encoder.md R100 to R112). -/

namespace Sys2Proof.Machine

variable {s : State} {c : Config} {id mask data : Byte}

/-! The frame (R11 to R13) -/

/-- The payload bytes of a mask, channel by channel in ascending order (R11). -/
theorem gather_positions (m : Memory) : gather m (positions c mask) =
    ((List.range c.C).filter (fun i => mask.getLsbD i)).flatMap
      (fun i => (List.range (c.size i)).map (fun j => Memory.read m (c.offset i + j))) := by
  rw [gather, positions_eq, List.map_flatMap]
  simp only [List.map_map, Function.comp_def]

theorem positions_zero : positions c 0 = [] := by simp [positions]

/-- A frame with nothing dirty is its header (R111). -/
theorem frame_zero (m : Memory) : frame c id 0 m = [marker, id, 0] := by rw [frame, positions_zero]; rfl

/-! The end of a send (R108, R110) -/

/-- A position is not sent when it lies in no dirty channel. -/
theorem not_mem_positions {p : Nat}
    (h : ∀ i < c.C, mask.getLsbD i = true → ¬(c.offset i ≤ p ∧ p < c.offset i + c.size i)) :
    p ∉ positions c mask := fun hp => by
  obtain ⟨i, hi, hbit, hpi⟩ := mem_positions.mp hp
  exact h i hi hbit (mem_channelPositions.mp hpi)

/-- With the dirty channels zeroed the whole payload is zero, as the others were (R38, R108). -/
theorem completeSend_payload_zeros (h : Inv s) : (completeSend s).txPayload = zeros s.cfg.T := by
  have hlen : s.txPayload.length = s.cfg.T := by simpa using h.sizes.txPayload
  refine array_ext (by simp [hlen]) fun p hp => ?_
  rw [read_zeros]
  by_cases hsent : p ∈ positions s.cfg s.txDirty
  · exact completeSend_read_sent hlen hsent
  · obtain ⟨i, hi, hpi⟩ := channel_of_position (c := s.cfg) (p := p) (by simpa [hlen] using hp)
    have hclean : s.txDirty.getLsbD i = false :=
      Bool.eq_false_iff.mpr fun hbit => hsent (mem_positions.mpr ⟨i, hi, hbit, hpi⟩)
    rw [completeSend_read_other hsent]
    exact h.encoder.clean i hi hclean p hpi

/-- In an idle encoder completion only zeroes the payload and the dirty mask (R25, R108). -/
theorem completeSend_of_idle (h : Inv s) (hb : s.txBusy = false) :
    completeSend s = { s with txPayload := zeros s.cfg.T, txDirty := 0 } := by
  have hframe : s.txFrame = [] := h.encoder.idle.mp hb
  have hidx : s.txIdx = 0 := h.encoder.index hb
  rw [← completeSend_payload_zeros h]
  simp only [completeSend, hframe, hidx, hb]

/-- In an idle encoder with nothing dirty completion changes nothing (R111). -/
theorem completeSend_of_clean (h : Inv s) (hb : s.txBusy = false) (hd : s.txDirty = 0) : completeSend s = s := by
  have hpayload : s.txPayload = zeros s.cfg.T := by
    rw [← completeSend_payload_zeros h, completeSend_txPayload, hd, positions_zero, scatter_nil]
  rw [completeSend_of_idle h hb, ← hpayload, ← hd]

/-- SEND and a TX for each byte of the frame: the sink takes the frame and the send completes (R110). -/
theorem execAll_send_drain (hb : s.txBusy = false) (hn : s.selfNodeId = some id) :
    execAll (.send :: List.replicate (frame s.cfg id s.txDirty s.txPayload).length .tx) s =
      .next (answer .ok
        { completeSend s with txOut := s.txOut ++ markLast (frame s.cfg id s.txDirty s.txPayload) }) := by
  have hne : frame s.cfg id s.txDirty s.txPayload ≠ [] := by simp [frame]
  exact (execAll_cons (exec_send_ok hb hn)).trans (drain (s := answer .ok (startFrame id s)) rfl rfl hne)

/-! How a receiver reads a header (R112, R132 to R134) -/

/-- While a header is awaited the marker starts a frame, whichever of its bytes is next (R112). -/
theorem rxStep_startMarker (h : s.rxState = .idle ∨ s.rxState = .waitNodeId ∨ s.rxState = .waitBitmask) :
    rxStep marker s = enterState .waitNodeId (consumeByte marker s) := by
  rcases h with h | h | h
  · rw [rxStep_idle h, rxIdle, if_pos rfl]
  · rw [rxStep_waitNodeId h, rxWaitNodeId, if_pos rfl]
  · rw [rxStep_waitBitmask h, rxWaitBitmask, if_pos rfl]

theorem rxStep_ignored (h : s.rxState = .idle) (hm : data ≠ marker) :
    rxStep data s = enterState .idle (consumeByte data s) := by rw [rxStep_idle h, rxIdle, if_neg hm]

/-- A node id that the store does not hold drops the frame (R133). -/
theorem rxStep_unknownNode (h : s.rxState = .waitNodeId) (hm : data ≠ marker) (hn : s.cfg.N ≤ data.toNat) :
    rxStep data s = enterState .idle (consumeByte data s) := by
  rw [rxStep_waitNodeId h, rxWaitNodeId, if_neg hm, if_pos (by simpa using hn)]

theorem rxStep_knownNode (h : s.rxState = .waitNodeId) (hm : data ≠ marker) (hn : data.toNat < s.cfg.N) :
    rxStep data s = enterState .waitBitmask (captureNode data (consumeByte data s)) := by
  rw [rxStep_waitNodeId h, rxWaitNodeId, if_neg hm, if_neg (by simpa using hn)]

/-- An empty mask drops the frame (R134). -/
theorem rxStep_emptyMask (h : s.rxState = .waitBitmask) : rxStep 0 s = enterState .idle (consumeByte 0 s) := by
  rw [rxStep_waitBitmask h, rxWaitBitmask, if_neg (by decide), if_neg (by simp), if_pos rfl]

/-- A receiver in Idle drops a frame with nothing dirty (R111), unless its id is the marker (R112). -/
theorem rxSteps_emptyFrame (h : s.rxState = .idle) (hid : id ≠ marker) :
    (rxSteps [marker, id, 0] s).rxState = .idle ∧ (rxSteps [marker, id, 0] s).store = s.store := by
  rw [rxSteps_cons, rxStep_startMarker (.inl h), rxSteps_cons]
  by_cases hn : id.toNat < s.cfg.N
  · rw [rxStep_knownNode rfl hid (by simpa using hn), rxSteps_cons, rxStep_emptyMask rfl, rxSteps_nil]
    simp
  · rw [rxStep_unknownNode rfl hid (by simpa using hn), rxSteps_cons, rxStep_ignored rfl (by decide), rxSteps_nil]
    simp

/-- A sender's id equal to the marker makes its mask the node id (R112). -/
theorem rxSteps_markerAsId (h : s.rxState = .idle) (hm : mask ≠ marker) :
    rxSteps [marker, marker, mask] s = { s with
      rxIn := s.rxIn ++ [marker, marker, mask]
      rxNode := if mask.toNat < s.cfg.N then mask else s.rxNode
      rxState := if mask.toNat < s.cfg.N then .waitBitmask else .idle } := by
  rw [rxSteps_cons, rxStep_startMarker (.inl h), rxSteps_cons, rxStep_startMarker (.inr (.inl rfl)), rxSteps_cons,
    rxSteps_nil]
  by_cases hn : mask.toNat < s.cfg.N
  · rw [rxStep_knownNode rfl hm (by simpa using hn), if_pos hn, if_pos hn]
    simp [enterState, captureNode, consumeByte]
  · rw [rxStep_unknownNode rfl hm (by simpa using hn), if_neg hn, if_neg hn]
    simp [enterState, consumeByte]

/-- A mask equal to the marker restarts the frame, after the node id was captured (R112). -/
theorem rxSteps_markerAsMask (h : s.rxState = .idle) (hid : id ≠ marker) (hn : id.toNat < s.cfg.N) :
    rxSteps [marker, id, marker] s = { s with
      rxIn := s.rxIn ++ [marker, id, marker], rxNode := id, rxState := .waitNodeId } := by
  rw [rxSteps_cons, rxStep_startMarker (.inl h), rxSteps_cons, rxStep_knownNode rfl hid (by simpa using hn),
    rxSteps_cons, rxStep_startMarker (.inr (.inr rfl)), rxSteps_nil]
  simp [enterState, captureNode, consumeByte]

end Sys2Proof.Machine

open Sys2Proof Sys2Proof.Machine

/-- Settles O10: the scatter reaches the positions of the channel only, and channels do not share one. -/
theorem setStagesOneChannel : Obligations.SetStagesOneChannel := by
  unfold Obligations.SetStagesOneChannel
  intro s ch d hinv hb hc hd
  have hlen : s.txPayload.length = s.cfg.T := by simpa using hinv.sizes.txPayload
  have hch : ch.toNat < 8 := Nat.lt_of_lt_of_le hc channels_between.2
  refine ⟨(stageChannel ch.toNat d s).txPayload, _, exec_set_ok hb hc, by simp, fun j hj => ?_, fun p hp => ?_,
    fun i hi hne j hj => ?_, fun i => getLsbD_setBit hch⟩
  · have hjd : j < d.length := hd ▸ Nat.lt_of_lt_of_le hj (size_le_smax hc)
    rw [stageChannel_read hlen hc hj, List.getD_eq_getElem _ _ hjd, List.getElem?_eq_getElem hjd]
  · exact stageChannel_read_other (mt mem_channelPositions.mp hp)
  · exact stageChannel_read_other
      (channelPositions_apart hi hc hne (mem_channelPositions.mpr ⟨by omega, by omega⟩))

/-- Settles O13: the bytes gathered from the mask's positions are those of its channels in ascending order. -/
theorem sendBuildsFrame : Obligations.SendBuildsFrame := by
  unfold Obligations.SendBuildsFrame
  intro s id hb hn
  rw [exec_send_ok hb hn, startFrame, frame, gather_positions]
  rfl

/-- Settles O15: completion writes zeros at the positions of the dirty channels. -/
theorem txOfLastByteCompletes : Obligations.TxOfLastByteCompletes := by
  unfold Obligations.TxOfLastByteCompletes
  intro s b hinv hb hget hlast
  have hlen : s.txPayload.length = s.cfg.T := by simpa using hinv.sizes.txPayload
  refine ⟨(completeSend s).txPayload, ?_, by simp, fun i hi hbit j hj => ?_, fun p hp => ?_⟩
  · rw [exec_tx, txStep_lastByte hb hlast, handByte_eq hget, hlast, beq_self_eq_true]; rfl
  · exact completeSend_read_sent hlen
      (mem_positions.mpr ⟨i, hi, hbit, mem_channelPositions.mpr ⟨by omega, by omega⟩⟩)
  · exact completeSend_read_other (not_mem_positions hp)

/-- Settles O18: the sink drains the frame, and what completion zeroes with what was clean is the whole payload. -/
theorem sendAndDrainIsOneSend : Obligations.SendAndDrainIsOneSend := by
  unfold Obligations.SendAndDrainIsOneSend
  intro s id hinv hb hn
  rw [execAll_send_drain hb hn, completeSend_of_idle hinv hb]
  rfl

/-- Settles O19: the send of the bare header drains like any other; the receiver drops at the id or the empty mask. -/
theorem emptySendIsHarmless : Obligations.EmptySendIsHarmless := by
  unfold Obligations.EmptySendIsHarmless
  refine ⟨fun s id hinv hb hn hd => ?_, fun r id hst => ⟨_, execAll_rx [marker, id, 0] r, ?_⟩⟩
  · have hrun := execAll_send_drain hb hn
    rw [hd, frame_zero, completeSend_of_clean hinv hb hd] at hrun
    exact hrun
  · by_cases hid : id = marker
    · subst hid
      rw [rxSteps_markerAsId hst (by decide)]
      exact ⟨rfl, fun hne => absurd rfl hne⟩
    · obtain ⟨hidle, hstore⟩ := rxSteps_emptyFrame hst hid
      exact ⟨hstore, fun _ => hidle⟩

/-- Settles O7: INIT's arm has no other path. -/
theorem initBindsNodeId : Obligations.InitBindsNodeId := by
  unfold Obligations.InitBindsNodeId
  exact fun s n => exec_init n

/-- Settles O8: Busy is SET's first check. -/
theorem setWhileBusyAnswersBusy : Obligations.SetWhileBusyAnswersBusy := by
  unfold Obligations.SetWhileBusyAnswersBusy
  exact fun s ch d hb => exec_set_busy hb

/-- Settles O9: the channel is SET's second check. -/
theorem setOfUnknownChannelAnswersInvalidChannel : Obligations.SetOfUnknownChannelAnswersInvalidChannel := by
  unfold Obligations.SetOfUnknownChannelAnswersInvalidChannel
  exact fun s ch d hb hc => exec_set_unknown hb hc

/-- Settles O11: Busy is SEND's first check. -/
theorem sendWhileBusyAnswersBusy : Obligations.SendWhileBusyAnswersBusy := by
  unfold Obligations.SendWhileBusyAnswersBusy
  exact fun s hb => exec_send_busy hb

/-- Settles O12: an idle encoder builds no header without a node identity. -/
theorem sendBeforeInitFaults : Obligations.SendBeforeInitFaults := by
  unfold Obligations.SendBeforeInitFaults
  exact fun s hb hn => exec_send_unset hb hn

/-- Settles O14: before the last byte a TX step only hands over the byte on offer. -/
theorem txHandsOneByte : Obligations.TxHandsOneByte := by
  unfold Obligations.TxHandsOneByte
  intro s b hb hget hmore
  have hne : s.txIdx + 1 ≠ s.txFrame.length := Nat.ne_of_lt hmore
  rw [exec_tx, txStep_midFrame hb hne, handByte_eq hget, beq_eq_false_iff_ne.mpr hne]

/-- Settles O17: both reserved arms answer without looking at the state. -/
theorem reservedCommandDoesNothing : Obligations.ReservedCommandDoesNothing := by
  unfold Obligations.ReservedCommandDoesNothing
  exact fun s xx op rsv => ⟨rfl, rfl⟩

/-- Settles O45: the three bytes are RX steps, and the marker starts a frame in each state of the header. -/
theorem markerInHeaderRestarts : Obligations.MarkerInHeaderRestarts := by
  unfold Obligations.MarkerInHeaderRestarts
  refine ⟨fun s mask hst hm => ?_, fun s id hst hid hn => ?_⟩
  · exact (execAll_rx [marker, marker, mask] s).trans (congrArg _ (rxSteps_markerAsId hst hm))
  · exact (execAll_rx [marker, id, marker] s).trans (congrArg _ (rxSteps_markerAsMask hst hid hn))
end

section
/-! Proofs of the family 41_decoder: the rule of each receive state with the whole next state, the byte that commits a
frame, and what the decoder does between bytes and inside an interrupting frame (spec/41_decoder.md R130 to R145). -/

namespace Sys2Proof.Machine

variable {s t : State} {data : Byte}

/-! The mask byte (R131, R134): the byte after a lone marker is handled as one -/

/-- A byte other than the marker goes to WaitBitmask's rule in that state and, by the pre-check, after a lone marker. -/
theorem rxStep_mask (h : s.rxState = .waitBitmask ∨ s.rxState = .gotSymbolPending) (hm : data ≠ marker) :
    rxStep data s = rxWaitBitmask data (consumeByte data s) :=
  h.elim rxStep_waitBitmask fun hpending => rxStep_demoted hpending hm

theorem rxStep_maskDropped (h : s.rxState = .waitBitmask ∨ s.rxState = .gotSymbolPending) (hm : data ≠ marker)
    (hbad : 2 ^ s.cfg.C ≤ data.toNat ∨ data = 0) : rxStep data s = enterState .idle (consumeByte data s) := by
  rw [rxStep_mask h hm, rxWaitBitmask, if_neg hm]
  split
  · rfl
  · exact if_pos (hbad.resolve_left ‹_›)

theorem rxStep_maskCaptured (h : s.rxState = .waitBitmask ∨ s.rxState = .gotSymbolPending) (hm : data ≠ marker)
    (hc : data.toNat < 2 ^ s.cfg.C) (h0 : data ≠ 0) : rxStep data s = { s with
      rxIn := s.rxIn ++ [data], rxMask := data, rxExpected := payloadLength s.cfg data, rxCount := 0
      rxState := .getData } := by
  rw [rxStep_mask h hm, rxWaitBitmask, if_neg hm, if_neg (by simpa using hc), if_neg h0, captureMask_eq]
  rfl

/-! A payload byte (R136 to R139) -/

/-- Storing a byte of the frame in progress, with the count as a plain number (R138: it does not wrap). -/
theorem storeByte_consumeByte (hinv : Inv s) (hst : s.rxState = .getData ∨ s.rxState = .gotSymbolPending) :
    storeByte data (consumeByte data s) = { s with
      rxIn := s.rxIn ++ [data], rxBuf := s.rxBuf.set s.rxCount data, rxCount := s.rxCount + 1 } :=
  storeByte_eq (hinv.count_lt hst)

/-- The byte that completes the frame is stored, the frame commits, and the decoder is in Idle, in one step. -/
theorem rxStep_completes (h : completesFrame s data) :
    rxStep data s = enterState .idle (commit (storeByte data (consumeByte data s))) := by
  obtain ⟨happended, hlast⟩ := h
  rw [rxStep_append happended]
  exact append_last hlast

/-- Committing scatters byte `k` of the assembly buffer to position `k` of the mask (R139). -/
theorem read_scatter_take {c : Config} {mask : Byte} {buf payload : Memory} {k p : Nat} (hbuf : buf.length = c.T)
    (hpayload : payload.length = c.T) (hk : (positions c mask)[k]? = some p) :
    some (Memory.read (scatter (positions c mask) (buf.take (payloadLength c mask)) payload) p) = buf[k]? := by
  have hlt : k < payloadLength c mask := (List.getElem?_eq_some_iff.mp hk).1
  have hin : k < buf.length := hbuf ▸ Nat.lt_of_lt_of_le hlt payloadLength_le
  have htaken : (buf.take (payloadLength c mask))[k]? = some buf[k] := by
    rw [List.getElem?_take_of_lt hlt, List.getElem?_eq_getElem hin]
  rw [List.getElem?_eq_getElem hin,
    read_scatter_at positions_nodup (fun _ hx => hpayload ▸ positions_lt hx) hk htaken]

/-! What leaves the store or the receiver as it is (R141, R142, R144) -/

/-- Every effect of an RX step but commit leaves the store (R141). -/
theorem rxStep_store_of_not_completes (h : ¬ completesFrame s data) : (rxStep data s).store = s.store := by
  have he := rxStep_effect data s
  generalize rxStep data s = t at he
  cases he with
  | moved st hst => rfl
  | nodeCaptured hst hm hn => rfl
  | maskCaptured hst hm h0 hc => rfl
  | appended happended =>
    have hmore : nextCount (consumeByte data s) ≠ (consumeByte data s).rxExpected := fun hlast => h ⟨happended, hlast⟩
    rw [append_more hmore]; rfl

/-- In Idle, bytes that are not markers are consumed and nothing else happens (R132). -/
theorem rxSteps_ignored : ∀ {bs : List Byte} {s : State}, s.rxState = .idle → (∀ b ∈ bs, b ≠ marker) →
    (rxSteps bs s).rxState = .idle ∧ (rxSteps bs s).store = s.store
  | [], _, hst, _ => ⟨hst, rfl⟩
  | b :: bs, s, hst, hbs => by
    obtain ⟨hb, hrest⟩ := List.forall_mem_cons.mp hbs
    rw [rxSteps_cons, rxStep_ignored hst hb]
    exact rxSteps_ignored (s := enterState .idle (consumeByte b s)) rfl hrest

/-- A run of commands and TX writes the Transmit State, `tx_out` and the responses only (R65). -/
theorem execAll_transmit_frame {is : List Instr} (hi : ∀ i ∈ is, isReceive i = false ∧ i ≠ .reset)
    (he : execAll is s = .next t) : t = withTransmit s t := by
  induction is generalizing s with
  | nil => cases he; rfl
  | cons i is ih =>
    obtain ⟨⟨hreceive, hreset⟩, hrest⟩ := List.forall_mem_cons.mp hi
    obtain ⟨u, hfirst, hlater⟩ := execAll_cons_next he
    have htransmit : isCommand i = true ∨ i = .tx := by
      rcases instr_kinds i with hc | hr | htx | hrst
      · exact .inl hc
      · simp [hreceive] at hr
      · exact .inr htx
      · exact absurd hrst hreset
    calc t = withTransmit u t := ih hrest hlater
      _ = withTransmit (withTransmit s u) t := congrArg (withTransmit · t) (exec_transmit_frame htransmit hfirst)
      _ = withTransmit s t := rfl

end Sys2Proof.Machine

open Sys2Proof Sys2Proof.Machine

/-- Settles O40: commit modifies the entry of the frame's node only, and scatters the buffer, the last byte in it, to the
positions of the mask. -/
theorem lastByteCommitsTheFrame : Obligations.LastByteCommitsTheFrame := by
  unfold Obligations.LastByteCommitsTheFrame
  intro s data hinv hcompletes
  have ⟨happended, _⟩ := hcompletes
  have hst : s.rxState = .getData ∨ s.rxState = .gotSymbolPending := happended.imp And.left And.left
  have hnode : s.rxNode.toNat < s.store.length := hinv.sizes.store ▸ hinv.decoder.node (.inr hst)
  have hold : (s.store[s.rxNode.toNat]).payload.length = s.cfg.T := by
    simpa using hinv.sizes.storePayload _ (List.getElem_mem hnode)
  have hbuf : (s.rxBuf.set s.rxCount data).length = s.cfg.T := by simpa using hinv.sizes.rxBuf
  obtain ⟨-, -, hexpected, -⟩ := hinv.decoder.mask hst
  have hentry : s.store[s.rxNode.toNat]? = some s.store[s.rxNode.toNat] := List.getElem?_eq_getElem hnode
  refine ⟨(commit { s with rxBuf := s.rxBuf.set s.rxCount data }).store, ?_, by simp, fun n hn => commit_other hn,
    _, _, hentry, commit_entry hentry, rfl, fun k p hk => ?_, fun p hp => read_scatter_other hp⟩
  · rw [exec_rx, rxStep_completes hcompletes, storeByte_consumeByte hinv hst]; rfl
  · rw [hexpected]; exact read_scatter_take hbuf hold hk

/-- Settles O41: the RX step is a total function, and its frame is the Receive State, the store and `rx_in`. -/
theorem rxAlwaysCompletesSilently : Obligations.RxAlwaysCompletesSilently := by
  unfold Obligations.RxAlwaysCompletesSilently
  intro s data
  have hframe : rxStep data s = { withReceive s (rxStep data s) with rxIn := s.rxIn ++ [data] } := by
    rw [← rxStep_rxIn]; exact rxStep_frame data s
  exact ⟨_, _, _, _, _, _, _, congrArg Host.Outcome.next hframe⟩

/-- Settles O42: of the effects of an RX step only commit reaches the store. -/
theorem onlyACompletedFrameWritesTheStore : Obligations.OnlyACompletedFrameWritesTheStore := by
  unfold Obligations.OnlyACompletedFrameWritesTheStore
  intro s t data he hwritten
  cases he
  exact by_contra fun h => hwritten (rxStep_store_of_not_completes h)

/-- Settles O43, by induction on the run: each of its instructions is a command or a TX. -/
theorem decoderWaitsWithoutBytes : Obligations.DecoderWaitsWithoutBytes := by
  unfold Obligations.DecoderWaitsWithoutBytes
  intro is s t hi he
  rw [execAll_transmit_frame hi he]
  exact ⟨rfl, rfl, rfl, rfl, rfl, rfl, rfl, rfl⟩

/-- Settles O44: the new frame's marker opens the lookahead, so its node id is handled as a mask; a dropped one leaves the
decoder in Idle. -/
theorem interruptingFrameIsMisread : Obligations.InterruptingFrameIsMisread := by
  unfold Obligations.InterruptingFrameIsMisread
  intro s id hst hm
  refine ⟨fun hbad bs hbs => ⟨_, execAll_rx (marker :: id :: bs) s, ?_⟩, fun h0 hc => ?_⟩
  · rw [rxSteps_cons, rxStep_lookahead hst, rxSteps_cons, rxStep_maskDropped (.inr rfl) hm (by simpa using hbad.symm)]
    exact rxSteps_ignored rfl hbs
  · refine (execAll_rx [marker, id] s).trans (congrArg _ ?_)
    rw [rxSteps_cons, rxStep_lookahead hst, rxSteps_cons, rxStep_maskCaptured (.inr rfl) hm (by simpa using hc) h0]
    simp [enterState, consumeByte, marker]

/-- Settles O34, by the rule of Idle for the marker and for any other byte. -/
theorem rxInIdle : Obligations.RxInIdle := by
  unfold Obligations.RxInIdle
  intro s data hst
  by_cases hm : data = 0xFF
  · rw [hm]; exact congrArg Host.Outcome.next (rxStep_startMarker (.inl hst))
  · rw [exec_rx, rxStep_ignored hst hm, if_neg hm]; rfl

/-- Settles O35, by WaitNodeId's three cases. -/
theorem rxInWaitNodeId : Obligations.RxInWaitNodeId := by
  unfold Obligations.RxInWaitNodeId
  intro s data hst
  refine ⟨fun hm => ?_, fun hm hn => ?_, fun hm hn => ?_⟩
  · rw [exec_rx, hm]; exact congrArg _ (rxStep_startMarker (.inr (.inl hst)))
  · rw [exec_rx, rxStep_unknownNode hst hm hn]; rfl
  · rw [exec_rx, rxStep_knownNode hst hm hn]; rfl

/-- Settles O36, by WaitBitmask's cases: the length captured is the sum of the sizes and fits the counter. -/
theorem rxInWaitBitmask : Obligations.RxInWaitBitmask := by
  unfold Obligations.RxInWaitBitmask
  intro s data hst
  refine ⟨fun hm => ?_, fun hm hbad => ?_, fun hm hc h0 => ?_⟩
  · rw [exec_rx, hm]; exact congrArg _ (rxStep_startMarker (.inr (.inr hst)))
  · rw [exec_rx, rxStep_maskDropped (.inl hst) hm hbad]; rfl
  · rw [exec_rx, rxStep_maskCaptured (.inl hst) hm hc h0, payloadLength_eq_sum]

/-- Settles O37: a mask is dropped or captured alike in both states, and neither reaches the node id, the buffer or the
store. -/
theorem loneMarkerDemotesToWaitBitmask : Obligations.LoneMarkerDemotesToWaitBitmask := by
  unfold Obligations.LoneMarkerDemotesToWaitBitmask
  intro s data hst hm
  by_cases hbad : 2 ^ s.cfg.C ≤ data.toNat ∨ data = 0
  · have hpending := rxStep_maskDropped (.inr hst) hm hbad
    have hmask := rxStep_maskDropped (s := enterState .waitBitmask s) (.inl rfl) hm hbad
    exact ⟨congrArg Host.Outcome.next (hpending.trans hmask.symm), _, congrArg Host.Outcome.next hpending, rfl, rfl, rfl⟩
  · obtain ⟨hc, h0⟩ := not_or.mp hbad
    have hpending := rxStep_maskCaptured (.inr hst) hm (Nat.lt_of_not_le hc) h0
    have hmask := rxStep_maskCaptured (s := enterState .waitBitmask s) (.inl rfl) hm (Nat.lt_of_not_le hc) h0
    exact ⟨congrArg Host.Outcome.next (hpending.trans hmask.symm), _, congrArg Host.Outcome.next hpending, rfl, rfl, rfl⟩

/-- Settles O38: GetData's rule for the marker. -/
theorem markerInGetDataOpensLookahead : Obligations.MarkerInGetDataOpensLookahead := by
  unfold Obligations.MarkerInGetDataOpensLookahead
  exact fun s hst => congrArg Host.Outcome.next (rxStep_lookahead hst)

/-- Settles O39: both bytes are appended, and the invariants bound the count, so it is below the counter's width. -/
theorem payloadByteIsAppended : Obligations.PayloadByteIsAppended := by
  unfold Obligations.PayloadByteIsAppended
  intro s data hinv happended hmore
  have hst : s.rxState = .getData ∨ s.rxState = .gotSymbolPending := happended.imp And.left And.left
  have hnext : nextCount (consumeByte data s) ≠ (consumeByte data s).rxExpected :=
    ne_of_eq_of_ne (hinv.nextCount_eq hst) hmore
  rw [exec_rx, rxStep_append happended, append_more hnext, storeByte_consumeByte hinv hst]
  rfl
end

section
/-! Proofs of the family 42_store: GET's answers, the validity mask after a commit, and the round trip from SET to GET
(spec/42_store.md R160 to R166). -/

namespace Sys2Proof.Machine

variable {s : State} {ch node : Byte}

/-! GET (R160 to R164): one equation per answer -/

theorem exec_get_unknownNode (hn : s.cfg.N ≤ node.toNat) :
    exec (.get ch node) s = .next (answer .invalidNode s) := if_pos hn

theorem exec_get_unknownChannel (hn : node.toNat < s.cfg.N) (hc : s.cfg.C ≤ ch.toNat) :
    exec (.get ch node) s = .next (answer .invalidChannel s) := by
  rw [exec, execGet, if_neg (Nat.not_le.mpr hn), if_pos hc]

theorem exec_get_noData {e : StoreEntry} (hn : node.toNat < s.cfg.N) (hc : ch.toNat < s.cfg.C)
    (he : s.store[node.toNat]? = some e) (hv : e.valid.getLsbD ch.toNat = false) :
    exec (.get ch node) s = .next (answer .noData s) := by
  have hvalid : storeValid s node.toNat = e.valid := by simp [storeValid, he]
  rw [exec, execGet, if_neg (Nat.not_le.mpr hn), if_neg (Nat.not_le.mpr hc), hvalid, if_pos hv]

theorem exec_get_ok {e : StoreEntry} (hn : node.toNat < s.cfg.N) (hc : ch.toNat < s.cfg.C)
    (he : s.store[node.toNat]? = some e) (hv : e.valid.getLsbD ch.toNat = true) :
    exec (.get ch node) s = .next (respond .ok (getBytes s.cfg ch.toNat e.payload) s) := by
  have hvalid : storeValid s node.toNat = e.valid := by simp [storeValid, he]
  have hpayload : storePayload s node.toNat = e.payload := by simp [storePayload, he]
  rw [exec, execGet, if_neg (Nat.not_le.mpr hn), if_neg (Nat.not_le.mpr hc), hvalid, if_neg (by simp [hv]), hpayload]

theorem getBytes_getElem? {c : Config} {i j : Nat} {m : Memory} (hj : j < c.smax) :
    (getBytes c i m)[j]? = some (if j < c.size i then Memory.read m (c.offset i + j) else 0) := by
  simp [getBytes, hj]

/-! A run of accepted SETs (R103, R166) -/

variable {sets : List (Byte × List Byte)} {p : Nat}

/-- The state after one accepted SET of channel `x.1` to `x.2`, answered OK (R103). -/
def acceptSet (x : Byte × List Byte) (s : State) : State := answer .ok (stageChannel x.1.toNat x.2 s)

/-- The state after SETs accepted one after another. -/
def stageAll (sets : List (Byte × List Byte)) (s : State) : State :=
  sets.foldl (fun s x => acceptSet x s) s

/-- The SETs write the payload, the dirty mask and the responses only (R103). -/
theorem stageAll_frame : ∀ (sets : List (Byte × List Byte)) (s : State), stageAll sets s = { s with
    txPayload := (stageAll sets s).txPayload, txDirty := (stageAll sets s).txDirty
    responses := (stageAll sets s).responses }
  | [], _ => rfl
  | x :: xs, s => stageAll_frame xs (acceptSet x s)

@[simp] theorem stageAll_cfg : (stageAll sets s).cfg = s.cfg := by rw [stageAll_frame]
@[simp] theorem stageAll_txBusy : (stageAll sets s).txBusy = s.txBusy := by rw [stageAll_frame]
@[simp] theorem stageAll_selfNodeId : (stageAll sets s).selfNodeId = s.selfNodeId := by rw [stageAll_frame]
@[simp] theorem stageAll_txOut : (stageAll sets s).txOut = s.txOut := by rw [stageAll_frame]

/-- An idle encoder accepts every SET of a channel that exists. -/
theorem execAll_sets (hb : s.txBusy = false) (hc : ∀ x ∈ sets, x.1.toNat < s.cfg.C) :
    execAll (sets.map (fun x => .set x.1 x.2)) s = .next (stageAll sets s) := by
  induction sets generalizing s with
  | nil => rfl
  | cons x xs ih =>
    obtain ⟨hx, hxs⟩ := List.forall_mem_cons.mp hc
    rw [List.map_cons, execAll_cons (exec_set_ok hb hx)]
    exact ih hb hxs

theorem stageAll_keeps_inv (h : Inv s) (hb : s.txBusy = false) (hc : ∀ x ∈ sets, x.1.toNat < s.cfg.C) :
    Inv (stageAll sets s) := by
  induction sets generalizing s with
  | nil => exact h
  | cons x xs ih =>
    obtain ⟨hx, hxs⟩ := List.forall_mem_cons.mp hc
    exact ih (answer_keeps_inv (stageChannel_keeps_inv h hb hx)) hb hxs

/-- The channels set are what becomes dirty. -/
theorem stageAll_dirty (hc : ∀ x ∈ sets, x.1.toNat < s.cfg.C) :
    (stageAll sets s).txDirty.getLsbD ch.toNat = true ↔
      s.txDirty.getLsbD ch.toNat = true ∨ ch ∈ sets.map (·.1) := by
  induction sets generalizing s with
  | nil => simp [stageAll]
  | cons x xs ih =>
    obtain ⟨hx, hxs⟩ := List.forall_mem_cons.mp hc
    have hbit : x.1.toNat < 8 := Nat.lt_of_lt_of_le hx channels_between.2
    refine (ih (s := acceptSet x s) hxs).trans ?_
    rw [acceptSet, answer_txDirty, stageChannel_txDirty, getLsbD_setBit hbit, Bool.or_eq_true, beq_iff_eq,
      BitVec.toNat_inj, or_assoc, List.map_cons, List.mem_cons]

theorem stageAll_read_other (hp : ∀ x ∈ sets, p ∉ channelPositions s.cfg x.1.toNat) :
    Memory.read (stageAll sets s).txPayload p = Memory.read s.txPayload p := by
  induction sets generalizing s with
  | nil => rfl
  | cons x xs ih =>
    obtain ⟨hx, hxs⟩ := List.forall_mem_cons.mp hp
    exact (ih (s := acceptSet x s) hxs).trans (stageChannel_read_other hx)

/-- Each channel holds the bytes of its own SET: the SETs after it are of other channels, which share no position. -/
theorem stageAll_read (hlen : s.txPayload.length = s.cfg.T) (hc : ∀ x ∈ sets, x.1.toNat < s.cfg.C)
    (hnodup : (sets.map (·.1)).Nodup) {x : Byte × List Byte} (hx : x ∈ sets) {j : Nat}
    (hj : j < s.cfg.size x.1.toNat) :
    Memory.read (stageAll sets s).txPayload (s.cfg.offset x.1.toNat + j) = x.2.getD j 0 := by
  induction sets generalizing s with
  | nil => simp at hx
  | cons y ys ih =>
    obtain ⟨hy, hys⟩ := List.forall_mem_cons.mp hc
    obtain ⟨hfresh, hrest⟩ := List.nodup_cons.mp hnodup
    rcases List.mem_cons.mp hx with rfl | hin
    · have apart : ∀ z ∈ ys, s.cfg.offset x.1.toNat + j ∉ channelPositions s.cfg z.1.toNat := fun z hz => by
        have hne : x.1.toNat ≠ z.1.toNat :=
          fun e => hfresh (List.mem_map.mpr ⟨z, hz, (BitVec.eq_of_toNat_eq e).symm⟩)
        exact channelPositions_apart hy (hys z hz) hne (mem_channelPositions.mpr ⟨by omega, by omega⟩)
      exact (stageAll_read_other (s := acceptSet x s) apart).trans (stageChannel_read hlen hy hj)
    · exact ih (s := acceptSet y s) (by simpa [acceptSet] using hlen) hys hrest hin hj

/-- SETs on an encoder with nothing dirty leave dirty just the channels set (R166). -/
theorem stageAll_dirty_of_clean (h0 : s.txDirty = 0) (hc : ∀ x ∈ sets, x.1.toNat < s.cfg.C) (ch : Byte) :
    (stageAll sets s).txDirty.getLsbD ch.toNat = true ↔ ch ∈ sets.map (·.1) := by
  rw [stageAll_dirty hc, h0]; simp

/-- The mask 0xFF has all eight bits, so a mask whose bits are fewer channels is not the marker (R166). -/
theorem ne_marker_of_length_lt {mask : Byte} {chs : List Byte} (hlt : chs.length < 8)
    (h : ∀ ch : Byte, mask.getLsbD ch.toNat = true → ch ∈ chs) : mask ≠ marker := by
  rintro rfl
  have allSet : ∀ i < 8, marker.getLsbD i = true ∧ (BitVec.ofNat 8 i).toNat = i := by decide
  have hsub : List.range 8 ⊆ chs.map (·.toNat) := fun i hi => by
    obtain ⟨hbit, hval⟩ := allSet i (List.mem_range.mp hi)
    exact List.mem_map.mpr ⟨BitVec.ofNat 8 i, h _ (by rwa [hval]), hval⟩
  have hle := (List.subperm_of_subset List.nodup_range hsub).length_le
  rw [List.length_range, List.length_map] at hle
  omega

/-! The receiver's end (R139, R163) -/

/-- GET of a channel in the entry's mask answers the bytes of `payload`, where the entry reads as `payload` does at the
mask's positions. -/
theorem exec_get_framed {e : StoreEntry} {payload : Memory} (hn : node.toNat < s.cfg.N) (hc : ch.toNat < s.cfg.C)
    (he : s.store[node.toNat]? = some e) (hv : e.valid.getLsbD ch.toNat = true)
    (hread : ∀ p ∈ positions s.cfg e.valid, Memory.read e.payload p = Memory.read payload p) :
    ∃ bs, exec (.get ch node) s = .next (withResponse s .ok bs) ∧
      ∀ j < s.cfg.size ch.toNat, bs[j]? = some (Memory.read payload (s.cfg.offset ch.toNat + j)) := by
  refine ⟨_, exec_get_ok hn hc he hv, fun j hj => ?_⟩
  have hp : s.cfg.offset ch.toNat + j ∈ positions s.cfg e.valid :=
    mem_positions.mpr ⟨_, hc, hv, mem_channelPositions.mpr ⟨by omega, by omega⟩⟩
  rw [getBytes_getElem? (Nat.lt_of_lt_of_le hj (size_le_smax hc)), if_pos hj, hread _ hp]

end Sys2Proof.Machine

open Sys2Proof Sys2Proof.Machine

/-- Settles O50: the SETs stage their bytes at the positions of the mask they make, the sink drains the frame built from
them, and what a receiver stores of a frame is what was staged. -/
theorem roundTripReturnsWhatWasSet : Obligations.RoundTripReturnsWhatWasSet := by
  unfold Obligations.RoundTripReturnsWhatWasSet
  intro s r n sets hs hr hcfg hb hdirty hself hn hidle hne hnodup hsets hlt
  have hc : ∀ x ∈ sets, x.1.toNat < s.cfg.C := fun x hx => (hsets x hx).1
  have hstaged : Inv (stageAll sets s) := stageAll_keeps_inv hs hb hc
  have hbit := stageAll_dirty_of_clean hdirty hc
  have hnonzero : (stageAll sets s).txDirty ≠ 0 := fun h0 => by
    obtain ⟨x, hx⟩ := List.exists_mem_of_ne_nil _ hne
    simpa [h0] using (hbit x.1).mpr (List.mem_map_of_mem hx)
  have hmarker : (stageAll sets s).txDirty ≠ marker :=
    ne_marker_of_length_lt (by simpa using hlt) fun ch => (hbit ch).mp
  have hsend := execAll_send_drain (s := stageAll sets s) (by simpa using hb) (by simpa using hself)
  rw [stageAll_cfg, ← hcfg] at hsend
  obtain ⟨r1, hreceive, -, -, e, he, hvalid, hread⟩ := receivedFrameIsStored r n (stageAll sets s).txDirty
    (stageAll sets s).txPayload hr hidle (hcfg ▸ hn) hnonzero hmarker (by simpa [hcfg] using hstaged.masks.txDirty)
  have hcfg1 : r1.cfg = s.cfg := by
    rw [execAll_rx] at hreceive; cases hreceive
    rw [rxSteps_frame]; exact hcfg
  rw [← hvalid] at hbit hread
  rw [hcfg, ← hcfg1] at hread
  rw [← hcfg1] at hn
  refine ⟨_, _, _, r1, (execAll_append (execAll_sets hb hc)).trans hsend, rfl, ?_, hreceive, fun x hx => ?_,
    fun ch hch hnot => ?_⟩
  · rw [answer_txOut, stageAll_txOut]
  · obtain ⟨hxc, hxlen⟩ := hsets x hx
    obtain ⟨bs, hget, hbs⟩ := exec_get_framed hn (hcfg1 ▸ hxc) he ((hbit x.1).mpr (List.mem_map_of_mem hx)) hread
    rw [hcfg1] at hbs
    refine ⟨bs, hget, fun j hj => ?_⟩
    have hjx : j < x.2.length := hxlen ▸ Nat.lt_of_lt_of_le hj (size_le_smax hxc)
    rw [hbs j hj, stageAll_read (payload_length hs) hc hnodup hx hj, List.getD_eq_getElem _ _ hjx,
      List.getElem?_eq_getElem hjx]
  · have hclear : e.valid.getLsbD ch.toNat = false := Bool.eq_false_iff.mpr fun h => hnot ((hbit ch).mp h)
    rw [exec_get_noData hn (hcfg1 ▸ hch) he hclear, answer_eq_withResponse, hcfg1]

/-- Settles O33: the commit leaves the frame's mask in the node's entry, and GET reads that entry. -/
theorem commitReplacesValidity : Obligations.CommitReplacesValidity := by
  unfold Obligations.CommitReplacesValidity
  intro s data hinv hcompletes
  have ⟨happended, _⟩ := hcompletes
  have hn : s.rxNode.toNat < s.cfg.N := hinv.decoder.node (.inr (happended.imp And.left And.left))
  obtain ⟨store, hexec, -, -, -, e, -, he, hvalid, -⟩ := lastByteCommitsTheFrame s data hinv hcompletes
  exact ⟨_, hexec, ⟨e, he, hvalid⟩, fun ch hc => ⟨fun h0 => exec_get_noData hn hc he (hvalid ▸ h0),
    fun h1 => ⟨_, exec_get_ok hn hc he (hvalid ▸ h1)⟩⟩⟩

/-- Settles O28: the node is GET's first check. -/
theorem getOfUnknownNode : Obligations.GetOfUnknownNode := by
  unfold Obligations.GetOfUnknownNode
  exact fun s ch node hn => exec_get_unknownNode hn

/-- Settles O29: the channel is GET's second check. -/
theorem getOfUnknownChannel : Obligations.GetOfUnknownChannel := by
  unfold Obligations.GetOfUnknownChannel
  exact fun s ch node hn hc => exec_get_unknownChannel hn hc

/-- Settles O30: the validity bit is GET's third check. -/
theorem getWithoutData : Obligations.GetWithoutData := by
  unfold Obligations.GetWithoutData
  exact fun s ch node e hn hc he hv => exec_get_noData hn hc he hv

/-- Settles O31: past its checks GET answers with `getBytes` of the node's payload. -/
theorem getReadsTheChannel : Obligations.GetReadsTheChannel := by
  unfold Obligations.GetReadsTheChannel
  exact fun s ch node e hn hc he hv =>
    ⟨_, exec_get_ok hn hc he hv, getBytes_length, fun j hj => getBytes_getElem? hj⟩

/-- Settles O32: GET completes, and of a command's effects only the answer is GET's. -/
theorem getChangesNothing : Obligations.GetChangesNothing := by
  unfold Obligations.GetChangesNothing
  intro s ch node
  obtain ⟨t, he⟩ := (exec_completes_or_unset (.get ch node) s).resolve_right (by simp)
  cases command_effect rfl he with
  | answered st r hl hr => exact ⟨st, r, he⟩
  | bound n hi => cases hi
  | staged ch d hi hb hc => cases hi
  | started id hi hb hn => cases hi
end

section
/-! Proofs of the family 60_exceptions: what a command that is not accepted leaves, and a block that waits for its sink
(spec/60_exceptions.md R173, R182). -/

namespace Sys2Proof.Machine

variable {i : Instr} {s t : State}

/-- Where the environment makes no event a step leaves the state as it is (R182). -/
theorem step_of_no_event (h : s.pending = []) : step s = .next s := by
  simp [step, takeEvent, h]

/-- While busy every instruction completes: SEND answers before it looks at the node identity (R104, R105). -/
theorem exec_completes_of_busy (hb : s.txBusy = true) (i : Instr) : ∃ t, exec i s = .next t :=
  (exec_completes_or_unset i s).resolve_right (by simp [hb])

/-- While busy only the sink and reset reach the frame in flight, the byte on offer and what was handed over (R107). -/
theorem exec_keeps_offer (hb : s.txBusy = true) (hi : i ≠ .tx ∧ i ≠ .reset) (he : exec i s = .next t) :
    t.txBusy = true ∧ t.txFrame = s.txFrame ∧ t.txIdx = s.txIdx ∧ t.txOut = s.txOut := by
  obtain ⟨htx, hreset⟩ := hi
  cases exec_effect he with
  | commanded hc =>
    cases hc with
    | answered st r hl hr => exact ⟨hb, rfl, rfl, rfl⟩
    | bound n hi => exact ⟨hb, rfl, rfl, rfl⟩
    | staged ch d hi hidle hc => simp [hb] at hidle
    | started id hi hidle hn => simp [hb] at hidle
  | received bs => rw [rxSteps_frame]; exact ⟨hb, rfl, rfl, rfl⟩
  | taken hi => exact absurd hi htx
  | cleared hi => exact absurd hi hreset

end Sys2Proof.Machine

open Sys2Proof Sys2Proof.Machine

/-- Settles O22: every effect of a command adds one response, and one whose status is not OK is an answer only. -/
theorem nonOkCommandWritesNothing : Obligations.NonOkCommandWritesNothing := by
  unfold Obligations.NonOkCommandWritesNothing
  intro s t i hcommand he
  cases command_effect hcommand he with
  | answered st r hl hr =>
    refine ⟨⟨st, r⟩, rfl, fun hne => ?_⟩
    rw [hr hne]; exact answer_eq_withResponse st s
  | bound n hi => exact ⟨_, rfl, fun hne => absurd rfl hne⟩
  | staged ch d hi hb hc => exact ⟨_, rfl, fun hne => absurd rfl hne⟩
  | started id hi hb hn => exact ⟨_, rfl, fun hne => absurd rfl hne⟩

/-- Settles O23, by induction on the run: the first instruction completes and keeps the offer, so the block is still busy
for the rest. -/
theorem unreadySinkKeepsTheBlockBusy : Obligations.UnreadySinkKeepsTheBlockBusy := by
  unfold Obligations.UnreadySinkKeepsTheBlockBusy
  intro is
  induction is with
  | nil => exact fun s hb _ => ⟨s, rfl, hb, rfl, rfl, rfl⟩
  | cons i is ih =>
    intro s hb hi
    obtain ⟨hfirst, hrest⟩ := List.forall_mem_cons.mp hi
    obtain ⟨u, he⟩ := exec_completes_of_busy hb i
    obtain ⟨hbusy, hframe, hidx, hout⟩ := exec_keeps_offer hb hfirst he
    obtain ⟨t, hrun, htbusy, htframe, htidx, htout⟩ := ih u hbusy hrest
    exact ⟨t, (execAll_cons he).trans hrun, htbusy, htframe.trans hframe, htidx.trans hidx, htout.trans hout⟩

/-- Settles O6: with nothing pending a step takes no event. -/
theorem stepWithoutEventsChangesNothing : Obligations.StepWithoutEventsChangesNothing := by
  unfold Obligations.StepWithoutEventsChangesNothing
  exact fun s h => step_of_no_event h
end

section
/-! Proofs of the family 70_reset_and_hazards: the state right after reset, and what RESET abandons of a frame being sent
or received (spec/70_reset_and_hazards.md R190 to R193). -/

namespace Sys2Proof.Machine

variable {s : State}

/-- The store right after RESET: one entry per node, none of them valid (R190). -/
theorem afterReset_store (s : State) :
    (afterReset s).store = List.replicate s.cfg.N ⟨0, List.replicate s.cfg.T 0⟩ := rfl

theorem afterReset_store_invalid : ∀ e ∈ (afterReset s).store, e.valid = 0 := by
  intro e he
  rw [afterReset_store] at he
  rw [List.eq_of_mem_replicate he]

/-- What the sink has taken stays taken (R191). -/
theorem txHistory_afterReset (s : State) : txHistory (afterReset s) = txHistory s := List.append_nil _

/-- With no frame in flight a ready sink takes nothing, however often it is ready (R70, R107). -/
theorem execAll_tx_idle (hb : s.txBusy = false) : ∀ k : Nat, execAll (List.replicate k .tx) s = .next s
  | 0 => rfl
  | k + 1 => by
    rw [List.replicate_succ, execAll_cons exec_tx, txStep_idle hb]
    exact execAll_tx_idle hb k

/-- GET of a valid node and channel answers NoData right after RESET (R193). -/
theorem exec_get_afterReset {ch node : Byte} (hn : node.toNat < s.cfg.N) (hc : ch.toNat < s.cfg.C) :
    exec (.get ch node) (afterReset s) = .next (answer .noData (afterReset s)) := by
  have hentry : (afterReset s).store[node.toNat]? = some ⟨0, List.replicate s.cfg.T 0⟩ := by
    rw [afterReset_store, List.getElem?_replicate_of_lt hn]
  exact exec_get_noData hn hc hentry BitVec.getLsbD_zero

end Sys2Proof.Machine

open Sys2Proof Sys2Proof.Machine

/-- Settles O58: RESET keeps the history and leaves the block idle, where no TX does anything. -/
theorem resetAbandonsTheFrameInFlight : Obligations.ResetAbandonsTheFrameInFlight := by
  unfold Obligations.ResetAbandonsTheFrameInFlight
  intro s k
  have hrun : execAll (.reset :: List.replicate k .tx) s = .next (afterReset s) :=
    (execAll_cons (exec_reset_eq s)).trans (execAll_tx_idle rfl k)
  exact ⟨_, hrun, txHistory_afterReset s, rfl, rfl⟩

/-- Settles O55: every configuration's reset state has the invariants, and it holds no response yet. -/
theorem invariantHoldsAtReset : Obligations.InvariantHoldsAtReset := by
  unfold Obligations.InvariantHoldsAtReset
  have hinv : ∀ c : Config, Inv (State.resetWith c) :=
    fun c => resetWith_inv c (p := []) (o := []) (i := []) (r := []) nofun
  exact ⟨hinv Config.reference, hinv⟩

/-- Settles O56: each element of the state that RESET leaves is its reset value by definition; the store is a list of
invalid entries, one per node. -/
theorem resetSetsTheWholeState : Obligations.ResetSetsTheWholeState := by
  unfold Obligations.ResetSetsTheWholeState
  intro s
  have hlength : (afterReset s).store.length = s.cfg.N := by rw [afterReset_store, List.length_replicate]
  exact ⟨_, exec_reset_eq s, rfl, rfl, rfl, rfl, rfl, rfl, rfl, rfl, hlength, afterReset_store_invalid, rfl, rfl⟩

/-- Settles O57: no entry is valid after RESET, and GET reads the entry's validity mask. -/
theorem resetAbandonsReception : Obligations.ResetAbandonsReception := by
  unfold Obligations.ResetAbandonsReception
  exact fun s => ⟨_, exec_reset_eq s, rfl, afterReset_store_invalid, fun _ _ hn hc => exec_get_afterReset hn hc⟩
end
